-- ==== Sys2Proof/Word.lean ====
section
/-! DEFINITION. The word types of the core (spec/00_scope.md R4, R6): bytes and 16-bit addresses, both unsigned. -/

namespace Sys2Proof

/-- A byte: the width of A, X, Y, P and of a memory cell (R4, R20). -/
abbrev Byte := BitVec 8

/-- A 16-bit word: the width of PC and of every address (R4, R40). -/
abbrev Addr := BitVec 16

end Sys2Proof
end

