-- ==== Sys2Proof/Config.lean ====
section
/-! DEFINITION. What the hardware fixes (spec/00_scope.md R4) and its configuration parameters (R5). -/

namespace Sys2Proof

/-- PC_SEQ: how the PC advances past an instruction (R5, 41_execution_step.md R107). -/
inductive PcSeq where
  | hardware
  | sourceCompat
  deriving DecidableEq, Repr

namespace Config

/-- The number of addressable bytes (R4, R40). -/
def memorySize : Nat := 65536

/-- Where `load` puts the first byte of the image (R4, R232). -/
def loadAddress : Addr := 0x8000

/-- The low byte of the reset vector; the high byte follows it (R4, R50). -/
def resetVector : Addr := 0xFFFC

/-- The longest image `load` takes (R4, R233). -/
def maxImageLength : Nat := 0x7FFF

/-- The default of PC_SEQ (R5). -/
def defaultPcSeq : PcSeq := .hardware

/-- What a byte that the memory does not list reads as.
DESIGN CHOICE (log 2, unsafe): R59 leaves the first contents to the parameter MEM_INIT. Every MEM_INIT is a memory
of the model, so a statement over all states holds for every MEM_INIT. -/
def unwrittenByte : Byte := 0x00

end Config

end Sys2Proof
end

