-- ==== Sys2Proof/Machine/Bits.lean ====
section
/-! DEFINITION. Bit fields and byte order (spec/00_scope.md R6, 20_memory.md R43, R44). -/

namespace Sys2Proof.Machine

/-- `zext_16(b)` (R6). -/
def zext16 (b : Byte) : Addr := b.zeroExtend 16

/-- `(hi << 8) | lo` (R6). -/
def wordOf (lo hi : Byte) : Addr := (zext16 hi <<< 8) ||| zext16 lo

/-- `w[7:0]` (R44). -/
def lowByte (w : Addr) : Byte := w.extractLsb' 0 8

/-- `w[15:8]` (R44). -/
def highByte (w : Addr) : Byte := w.extractLsb' 8 8

end Sys2Proof.Machine
end

