-- ==== Sys2Proof/Machine/Memory.lean ====
section
/-! DEFINITION. The flat memory of 65,536 bytes and its accessors (spec/20_memory.md R40 to R45). -/

namespace Sys2Proof.Machine

/-- The memory: the cells that differ from what an unlisted address reads as, by rising address. -/
abbrev Memory := List Host.Cell

namespace Memory

/-- What an address that the memory does not list reads as (log 2). -/
def unlisted (_k : Nat) : Byte := Config.unwrittenByte

/-- The one canonical form of a memory: addresses strictly rising and inside the address space, and no cell equal to
what an unlisted address reads as. -/
abbrev wf (m : Memory) : Prop :=
  m.Pairwise (fun c d => c.1 < d.1) ∧ ∀ c ∈ m, c.1 < Config.memorySize ∧ c.2 ≠ unlisted c.1

/-- The byte listed at key `k`, looked for among rising keys. -/
def lookup : Memory → Nat → Byte
  | [], k => unlisted k
  | (j, b) :: m, k => if j < k then lookup m k else if j = k then b else unlisted k

/-- The cell of `v` at `k`, unless it is what an unlisted address reads as. -/
def cell (k : Nat) (v : Byte) : Memory := if v = unlisted k then [] else [(k, v)]

/-- `v` put at key `k`. In a canonical memory the cells dropped are at most the old one of `k`; dropping every cell up
to `k` at that place makes a read after a write right in any list, canonical or not. -/
def put : Memory → Nat → Byte → Memory
  | [], k, v => cell k v
  | (j, b) :: m, k, v =>
    if j < k then (j, b) :: put m k v
    else cell k v ++ ((j, b) :: m).dropWhile (fun c => decide (c.1 ≤ k))

/-- `read_byte` (R41): no side effect. -/
def read (m : Memory) (a : Addr) : Byte := lookup m a.toNat

/-- `write_byte` (R42): always succeeds. -/
def write (m : Memory) (a : Addr) (v : Byte) : Memory := put m a.toNat v

/-- `read_word` (R43): little-endian, the high byte at `a +16 1`. -/
def readWord (m : Memory) (a : Addr) : Addr := wordOf (m.read a) (m.read (a + 1))

/-- `write_word` (R44): little-endian, the low byte first. -/
def writeWord (m : Memory) (a : Addr) (w : Addr) : Memory := (m.write a (lowByte w)).write (a + 1) (highByte w)

/-- `ZpRead16` (R45): the pointer's high byte comes from `p +8 1`, inside the zero page. -/
def zpRead16 (m : Memory) (p : Byte) : Addr := wordOf (m.read (zext16 p)) (m.read (zext16 (p + 1)))

/-- The bytes written one after another from `a` up, in increasing address order (R232). -/
def writeBytes (m : Memory) (a : Addr) : List Byte → Memory
  | [] => m
  | b :: bytes => writeBytes (m.write a b) (a + 1) bytes

/-- The `n` bytes from `a` up. -/
def readBytes (m : Memory) (a : Addr) : Nat → List Byte
  | 0 => []
  | n + 1 => m.read a :: readBytes m (a + 1) n

end Memory

end Sys2Proof.Machine
end

