-- ==== Sys2Proof/Machine/State.lean ====
section
/-! DEFINITION. The state of the core (spec/10_state.md R20 to R37), the reasons a step or a host operation stops, and
the state after reset. -/

namespace Sys2Proof.Machine

/-- The closed set of fault kinds (60_exceptions.md R200). Taking one is a next state: `raise` of Ops.lean. -/
inductive FaultKind where
  | unimplementedOpcode
  | invalidAddressingMode
  deriving DecidableEq, Repr

/-- The run state (10_state.md R35) with the fault record (R36). -/
inductive RunState where
  | running
  | halted
  | faulted (kind : FaultKind) (op : Byte) (pc : Addr)
  deriving DecidableEq, Repr

/-- The state (10_state.md R20). `pcSeq` is the model's own field: the parameter PC_SEQ of 00_scope.md R5, which no
operation writes (log 1). -/
structure State where
  a : Byte
  x : Byte
  y : Byte
  p : Byte
  pc : Addr
  mem : Memory
  run : RunState
  pcSeq : PcSeq
  deriving DecidableEq, Repr

/-- Why no step is taken (41_execution_step.md R100: no step is enabled, the core does nothing). -/
inductive Fault where
  /-- `step` of a Halted state: stuck until the host resets the core. Safe: the state stays as it is (log 6). -/
  | notEnabledHalted
  /-- `step` of a Faulted state, with its record: stuck until the host resets the core. Safe (log 6). -/
  | notEnabledFaulted (kind : FaultKind) (op : Byte) (pc : Addr)
  deriving DecidableEq, Repr

/-- What the model gives no meaning. -/
inductive Refusal where
  /-- An arm of `exec` without a meaning yet; no arm is one. Safe. -/
  | notModelled (mnemonic : String)
  /-- `load` of an image longer than 0x7FFF bytes, which the source leaves undefined (70_reset_and_hazards.md R233,
  U1). Raised by `load`. Safe: no state follows (log 15). -/
  | imageTooLong (length : Nat)
  deriving DecidableEq, Repr

/-- The machine right after reset (10_state.md R37), over a memory that lists nothing (log 2) and with the default
PC_SEQ (R5). A, X, Y and P are zeroed, PC is the word at 0xFFFC and the run state is Running. -/
def State.reset : State where
  a := 0x00
  x := 0x00
  y := 0x00
  p := 0x00
  pc := Memory.readWord [] Config.resetVector
  mem := []
  run := .running
  pcSeq := Config.defaultPcSeq

end Sys2Proof.Machine
end

