-- ==== Sys2Proof/Machine/Ops.lean ====
section
/-! DEFINITION. The named operations over registers and memory, and the taking of a fault
(spec/10_state.md, 60_exceptions.md R206). -/

namespace Sys2Proof.Machine

namespace State

/-- `A <- v` (00_scope.md R8). -/
def setA (s : State) (v : Byte) : State := { s with a := v }

/-- `X <- v` (R8). -/
def setX (s : State) (v : Byte) : State := { s with x := v }

/-- `Y <- v` (R8). -/
def setY (s : State) (v : Byte) : State := { s with y := v }

/-- `P <- v` (R8). -/
def setP (s : State) (v : Byte) : State := { s with p := v }

/-- `PC <- t` (R8). -/
def setPc (s : State) (t : Addr) : State := { s with pc := t }

/-- The run state entered (10_state.md R35). -/
def setRun (s : State) (r : RunState) : State := { s with run := r }

/-- The memory replaced by another; only the two operations below and the host's load use it. -/
def setMem (s : State) (m : Memory) : State := { s with mem := m }

/-- `MemRead(a, 1)` (20_memory.md R41). -/
def readByte (s : State) (a : Addr) : Byte := s.mem.read a

/-- `MemWrite(a, 1, v)` (20_memory.md R42). -/
def writeByte (s : State) (a : Addr) (v : Byte) : State := s.setMem (s.mem.write a v)

/-- The PC advanced by `n` bytes, wrapping at 0xFFFF (10_state.md R26). -/
def advancePc (s : State) (n : Nat) : State := s.setPc (s.pc + BitVec.ofNat 16 n)

/-- `halt` (00_scope.md R9, 44_brk.md R180). -/
def halt (s : State) : State := s.setRun .halted

/-- Taking a fault (60_exceptions.md R206): no register and no byte of memory changes, nothing is saved, no vector is
read; the run state records the kind, the opcode and the opcode's address. Applied to the state BEFORE the step, whose
PC is pc0, so that the fetch's PC advance is undone (41_execution_step.md R104; log 5).
There is no return from a fault but the host's reset (R207). -/
def raise (s : State) (kind : FaultKind) (op : Byte) : State := s.setRun (.faulted kind op s.pc)

end State

end Sys2Proof.Machine
end

