-- ==== Sys2Proof/Machine/Brk.lean ====
section
/-! DEFINITION. BRK (spec/44_brk.md R180, R181). -/

namespace Sys2Proof.Machine

/-- BRK (R180): `halt`; no register, flag or byte of memory changes, no vector is read (R181; log 7). -/
def execBrk (s : State) : Host.Outcome State Fault Refusal := .next s.halt

end Sys2Proof.Machine
end

