-- ==== Sys2Proof/Machine/Flags.lean ====
section
/-! DEFINITION. The status register's fields and the flag update (spec/10_state.md R27 to R32). -/

namespace Sys2Proof.Machine

/-- Z, bit 1 of P (R27, R28). -/
def zFlag (p : Byte) : Bool := p.getLsbD 1

/-- N, bit 7 of P (R27, R29). -/
def nFlag (p : Byte) : Bool := p.getLsbD 7

/-- The mask of the six reserved bits, which `SetZN` keeps (R30, R31). -/
def reservedMask : Byte := 0x7D

/-- A flag as a byte, to be shifted to its place. -/
def flagBit (b : Bool) : Byte := if b then 1 else 0

/-- `SetZN(r)` on the value of P (R31). -/
def withZN (p r : Byte) : Byte :=
  (p &&& reservedMask) ||| (flagBit (r == 0x00) <<< 1) ||| (flagBit (r.getLsbD 7) <<< 7)

/-- `SetZN(r)` (R31): both flags written together from one byte, the reserved bits kept. -/
def State.setZN (s : State) (r : Byte) : State := s.setP (withZN s.p r)

/-- A written with `v`, the flags from the new A (R31, R32): the shared end of TXA, TYA, LDA, ROL and ROR. -/
def State.resultA (s : State) (v : Byte) : State := (s.setA v).setZN v

/-- X written with `v`, the flags from the new X (R31, R32). -/
def State.resultX (s : State) (v : Byte) : State := (s.setX v).setZN v

/-- Y written with `v`, the flags from the new Y (R31, R32). -/
def State.resultY (s : State) (v : Byte) : State := (s.setY v).setZN v

end Sys2Proof.Machine
end

