-- ==== Sys2Proof/Machine/Implied.lean ====
section
/-! DEFINITION. The implied-mode register instructions (spec/42_implied.md R120 to R127), run after the opcode fetch,
which has set PC = pc0 +16 1; they move PC no further (41_execution_step.md R105). -/

namespace Sys2Proof.Machine

/-- TAX (R120): `X <- A; SetZN(X)`. -/
def execTax (s : State) : Host.Outcome State Fault Refusal := .next (s.resultX s.a)

/-- TXA (R121): `A <- X; SetZN(A)`. -/
def execTxa (s : State) : Host.Outcome State Fault Refusal := .next (s.resultA s.x)

/-- DEX (R122): `X <- X -8 1; SetZN(X)`. -/
def execDex (s : State) : Host.Outcome State Fault Refusal := .next (s.resultX (s.x - 1))

/-- INX (R123): `X <- X +8 1; SetZN(X)`. -/
def execInx (s : State) : Host.Outcome State Fault Refusal := .next (s.resultX (s.x + 1))

/-- TAY (R124): `Y <- A; SetZN(Y)`. -/
def execTay (s : State) : Host.Outcome State Fault Refusal := .next (s.resultY s.a)

/-- TYA (R125): `A <- Y; SetZN(A)`. -/
def execTya (s : State) : Host.Outcome State Fault Refusal := .next (s.resultA s.y)

/-- DEY (R126): `Y <- Y -8 1; SetZN(Y)`. -/
def execDey (s : State) : Host.Outcome State Fault Refusal := .next (s.resultY (s.y - 1))

/-- INY (R127): `Y <- Y +8 1; SetZN(Y)`. -/
def execIny (s : State) : Host.Outcome State Fault Refusal := .next (s.resultY (s.y + 1))

end Sys2Proof.Machine
end

