-- ==== Sys2Proof/Syntax.lean ====
section
/-! DEFINITION. The instructions: handlers and addressing modes (spec/30_encoding.md R73), the raw instructions an
assembler may be given (R71), and the 32 instructions of the opcode map (R66), one constructor a row. -/

namespace Sys2Proof

/-- The implied-mode handlers (41_execution_step.md R103, 42_implied.md). -/
inductive ImpliedOp where
  | tax | txa | dex | inx | tay | tya | dey | iny
  deriving DecidableEq, Repr

/-- The addressing-mode handlers (41_execution_step.md R103, 43_addressed.md). -/
inductive AddressedOp where
  | lda | sta | rol | ror
  deriving DecidableEq, Repr

/-- The handlers of R73 in the families R103 dispatches to. -/
inductive Handler where
  | brk
  | implied (op : ImpliedOp)
  | addressed (op : AddressedOp)
  deriving DecidableEq, Repr

/-- The addressing modes (R73): the nine of the resolver and NoneAddressing. -/
inductive Mode where
  | immediate | zeroPage | zeroPageX | zeroPageY | absolute | absoluteX | absoluteY | indirectX | indirectY
  | noneAddressing
  deriving DecidableEq, Repr

/-- The instruction formats I, B and W (R61, R62, R63). -/
inductive Format where
  | implied | byteOperand | wordOperand
  deriving DecidableEq, Repr

/-- The format of each mode (R61 to R63). -/
def Mode.format : Mode → Format
  | .noneAddressing => .implied
  | .immediate => .byteOperand
  | .zeroPage => .byteOperand
  | .zeroPageX => .byteOperand
  | .zeroPageY => .byteOperand
  | .indirectX => .byteOperand
  | .indirectY => .byteOperand
  | .absolute => .wordOperand
  | .absoluteX => .wordOperand
  | .absoluteY => .wordOperand

/-- The encoded length in bytes (R67). -/
def Format.length : Format → Nat
  | .implied => 1
  | .byteOperand => 2
  | .wordOperand => 3

/-- The operand as the encoding carries it: none, the byte b, or the little-endian word (R61 to R64). -/
inductive Operand where
  | none
  | byte (b : Byte)
  | word (w : Addr)
  deriving DecidableEq, Repr

/-- A handler, a mode and an operand put together freely, as an assembler is given them (R71).
Only some are instructions of this core: WellFormed.lean. -/
structure RawInstr where
  handler : Handler
  mode : Mode
  operand : Operand
  deriving DecidableEq, Repr

/-- The instructions: one constructor per row of the opcode map (R66), with its operand. -/
inductive Instr where
  | brk
  | tax
  | txa
  | dex
  | inx
  | tay
  | tya
  | dey
  | iny
  | ldaImm (b : Byte)
  | ldaZp (b : Byte)
  | ldaZpX (b : Byte)
  | ldaAbs (w : Addr)
  | ldaAbsX (w : Addr)
  | ldaAbsY (w : Addr)
  | ldaIndX (b : Byte)
  | ldaIndY (b : Byte)
  | staZp (b : Byte)
  | staZpX (b : Byte)
  | staAbs (w : Addr)
  | staAbsX (w : Addr)
  | staAbsY (w : Addr)
  | staIndX (b : Byte)
  | staIndY (b : Byte)
  | rolZp (b : Byte)
  | rolZpX (b : Byte)
  | rolAbs (w : Addr)
  | rolAbsX (w : Addr)
  | rorZp (b : Byte)
  | rorZpX (b : Byte)
  | rorAbs (w : Addr)
  | rorAbsX (w : Addr)
  deriving DecidableEq, Repr

/-- The handler, mode and operand of each instruction (columns "mnemonic" and "mode" of R66). -/
def Instr.raw : Instr → RawInstr
  | .brk => ⟨.brk, .noneAddressing, .none⟩
  | .tax => ⟨.implied .tax, .noneAddressing, .none⟩
  | .txa => ⟨.implied .txa, .noneAddressing, .none⟩
  | .dex => ⟨.implied .dex, .noneAddressing, .none⟩
  | .inx => ⟨.implied .inx, .noneAddressing, .none⟩
  | .tay => ⟨.implied .tay, .noneAddressing, .none⟩
  | .tya => ⟨.implied .tya, .noneAddressing, .none⟩
  | .dey => ⟨.implied .dey, .noneAddressing, .none⟩
  | .iny => ⟨.implied .iny, .noneAddressing, .none⟩
  | .ldaImm b => ⟨.addressed .lda, .immediate, .byte b⟩
  | .ldaZp b => ⟨.addressed .lda, .zeroPage, .byte b⟩
  | .ldaZpX b => ⟨.addressed .lda, .zeroPageX, .byte b⟩
  | .ldaAbs w => ⟨.addressed .lda, .absolute, .word w⟩
  | .ldaAbsX w => ⟨.addressed .lda, .absoluteX, .word w⟩
  | .ldaAbsY w => ⟨.addressed .lda, .absoluteY, .word w⟩
  | .ldaIndX b => ⟨.addressed .lda, .indirectX, .byte b⟩
  | .ldaIndY b => ⟨.addressed .lda, .indirectY, .byte b⟩
  | .staZp b => ⟨.addressed .sta, .zeroPage, .byte b⟩
  | .staZpX b => ⟨.addressed .sta, .zeroPageX, .byte b⟩
  | .staAbs w => ⟨.addressed .sta, .absolute, .word w⟩
  | .staAbsX w => ⟨.addressed .sta, .absoluteX, .word w⟩
  | .staAbsY w => ⟨.addressed .sta, .absoluteY, .word w⟩
  | .staIndX b => ⟨.addressed .sta, .indirectX, .byte b⟩
  | .staIndY b => ⟨.addressed .sta, .indirectY, .byte b⟩
  | .rolZp b => ⟨.addressed .rol, .zeroPage, .byte b⟩
  | .rolZpX b => ⟨.addressed .rol, .zeroPageX, .byte b⟩
  | .rolAbs w => ⟨.addressed .rol, .absolute, .word w⟩
  | .rolAbsX w => ⟨.addressed .rol, .absoluteX, .word w⟩
  | .rorZp b => ⟨.addressed .ror, .zeroPage, .byte b⟩
  | .rorZpX b => ⟨.addressed .ror, .zeroPageX, .byte b⟩
  | .rorAbs w => ⟨.addressed .ror, .absolute, .word w⟩
  | .rorAbsX w => ⟨.addressed .ror, .absoluteX, .word w⟩

end Sys2Proof
end

