-- ==== Sys2Proof/Machine/Operands.lean ====
section
/-! DEFINITION. The addressing-mode resolver (spec/40_addressing_modes.md) and the PC sequencing of the addressed
instructions (41_execution_step.md R107). -/

namespace Sys2Proof.Machine

/-- Immediate: the operand byte's own location, the PC after the opcode fetch (R82). -/
def eaImmediate (s : State) : Addr := s.pc

/-- ZeroPage (R83). -/
def eaZeroPage (b : Byte) : Addr := zext16 b

/-- ZeroPage,X (R84): the sum wraps inside the zero page. -/
def eaZeroPageX (b : Byte) (s : State) : Addr := zext16 (b + s.x)

/-- ZeroPage,Y (R85); no opcode uses it (30_encoding.md R70). -/
def eaZeroPageY (b : Byte) (s : State) : Addr := zext16 (b + s.y)

/-- Absolute (R86). -/
def eaAbsolute (w : Addr) : Addr := w

/-- Absolute,X (R87): 16-bit wrap. -/
def eaAbsoluteX (w : Addr) (s : State) : Addr := w + zext16 s.x

/-- Absolute,Y (R88): 16-bit wrap. -/
def eaAbsoluteY (w : Addr) (s : State) : Addr := w + zext16 s.y

/-- Indirect,X (R89): the pointer wraps at 8 bits, and so does the step to its high byte. -/
def eaIndirectX (b : Byte) (s : State) : Addr := s.mem.zpRead16 (b + s.x)

/-- Indirect,Y (R90). -/
def eaIndirectY (b : Byte) (s : State) : Addr := s.mem.zpRead16 b + zext16 s.y

/-- `consumed(mode)` (R81): how far the resolver advances the PC. NoneAddressing is never resolved. -/
def consumed : PcSeq → Mode → Nat
  | .hardware, .immediate => 1
  | .sourceCompat, .immediate => 0
  | _, .zeroPage => 1
  | _, .zeroPageX => 1
  | _, .zeroPageY => 1
  | _, .absolute => 2
  | _, .absoluteX => 2
  | _, .absoluteY => 2
  | _, .indirectX => 1
  | _, .indirectY => 1
  | _, .noneAddressing => 0

/-- The trailing advance after an addressing-mode handler (41_execution_step.md R107; log 1). -/
def trailing : PcSeq → Nat
  | .hardware => 0
  | .sourceCompat => 1

/-- `TrailingAdvance()` (41_execution_step.md R107). -/
def State.trailingAdvance (s : State) : State := s.advancePc (trailing s.pcSeq)

/-- The PC sequencing of an addressed instruction: the resolver's advance past the operand bytes (R81), then the
trailing advance (41_execution_step.md R106, R107). -/
def State.finish (s : State) (m : Mode) : State := (s.advancePc (consumed s.pcSeq m)).trailingAdvance

/-- `Resolve(mode)` (R80 to R91), with PC at the first operand byte: the effective address and the state with the PC
past the operand; none where it raises InvalidAddressingMode (R91). It changes nothing but PC (R93). -/
def resolve (m : Mode) (s : State) : Option (Addr × State) :=
  let b := s.readByte s.pc
  let w := s.mem.readWord s.pc
  let past := s.advancePc (consumed s.pcSeq m)
  match m with
  | .immediate => some (eaImmediate s, past)
  | .zeroPage => some (eaZeroPage b, past)
  | .zeroPageX => some (eaZeroPageX b s, past)
  | .zeroPageY => some (eaZeroPageY b s, past)
  | .absolute => some (eaAbsolute w, past)
  | .absoluteX => some (eaAbsoluteX w s, past)
  | .absoluteY => some (eaAbsoluteY w s, past)
  | .indirectX => some (eaIndirectX b s, past)
  | .indirectY => some (eaIndirectY b s, past)
  | .noneAddressing => none

end Sys2Proof.Machine
end

