-- ==== Sys2Proof/Machine/Load.lean ====
section
/-! DEFINITION. LDA (spec/43_addressed.md R140, R144 to R151), run after the opcode fetch, so that
PC is at the first operand byte. -/

namespace Sys2Proof.Machine

/-- `Execute(LDA, ea)` on the byte `m` at the effective address (R140), and the PC sequencing of the mode. -/
def State.load (s : State) (m : Byte) (mode : Mode) : State := (s.resultA m).finish mode

/-- LDA Immediate (R144): the byte at the effective address, the operand's own location (R82), is the operand
byte, which the step has read there (R64; log 12). -/
def execLdaImm (b : Byte) (s : State) : Host.Outcome State Fault Refusal :=
  .next (s.load b .immediate)

/-- LDA ZeroPage (R145). -/
def execLdaZp (b : Byte) (s : State) : Host.Outcome State Fault Refusal :=
  .next (s.load (s.readByte (eaZeroPage b)) .zeroPage)

/-- LDA ZeroPage,X (R146). -/
def execLdaZpX (b : Byte) (s : State) : Host.Outcome State Fault Refusal :=
  .next (s.load (s.readByte (eaZeroPageX b s)) .zeroPageX)

/-- LDA Absolute (R147). -/
def execLdaAbs (w : Addr) (s : State) : Host.Outcome State Fault Refusal :=
  .next (s.load (s.readByte (eaAbsolute w)) .absolute)

/-- LDA Absolute,X (R148). -/
def execLdaAbsX (w : Addr) (s : State) : Host.Outcome State Fault Refusal :=
  .next (s.load (s.readByte (eaAbsoluteX w s)) .absoluteX)

/-- LDA Absolute,Y (R149). -/
def execLdaAbsY (w : Addr) (s : State) : Host.Outcome State Fault Refusal :=
  .next (s.load (s.readByte (eaAbsoluteY w s)) .absoluteY)

/-- LDA Indirect,X (R150). -/
def execLdaIndX (b : Byte) (s : State) : Host.Outcome State Fault Refusal :=
  .next (s.load (s.readByte (eaIndirectX b s)) .indirectX)

/-- LDA Indirect,Y (R151). -/
def execLdaIndY (b : Byte) (s : State) : Host.Outcome State Fault Refusal :=
  .next (s.load (s.readByte (eaIndirectY b s)) .indirectY)

end Sys2Proof.Machine
end

