-- ==== Sys2Proof/Machine/Shift.lean ====
section
/-! DEFINITION. ROL and ROR (spec/43_addressed.md R142, R143, R159 to R166), run after the opcode fetch, so that
PC is at the first operand byte. -/

namespace Sys2Proof.Machine

/-- The byte ROL gives A: shifted left, bit 0 clear, bit 7 lost (R142; log 8). -/
def rolByte (m : Byte) : Byte := m <<< 1

/-- The byte ROR gives A: shifted right, bit 7 clear, bit 0 lost (R143; log 8). -/
def rorByte (m : Byte) : Byte := m >>> 1

/-- `Execute(ROL, ea)` on the byte `m` at the effective address (R142), and the PC sequencing of the mode. -/
def State.rotateLeft (s : State) (m : Byte) (mode : Mode) : State := (s.resultA (rolByte m)).finish mode

/-- `Execute(ROR, ea)` on the byte `m` at the effective address (R143), and the PC sequencing of the mode. -/
def State.rotateRight (s : State) (m : Byte) (mode : Mode) : State := (s.resultA (rorByte m)).finish mode

/-- ROL ZeroPage (R159). -/
def execRolZp (b : Byte) (s : State) : Host.Outcome State Fault Refusal :=
  .next (s.rotateLeft (s.readByte (eaZeroPage b)) .zeroPage)

/-- ROL ZeroPage,X (R160). -/
def execRolZpX (b : Byte) (s : State) : Host.Outcome State Fault Refusal :=
  .next (s.rotateLeft (s.readByte (eaZeroPageX b s)) .zeroPageX)

/-- ROL Absolute (R161). -/
def execRolAbs (w : Addr) (s : State) : Host.Outcome State Fault Refusal :=
  .next (s.rotateLeft (s.readByte (eaAbsolute w)) .absolute)

/-- ROL Absolute,X (R162). -/
def execRolAbsX (w : Addr) (s : State) : Host.Outcome State Fault Refusal :=
  .next (s.rotateLeft (s.readByte (eaAbsoluteX w s)) .absoluteX)

/-- ROR ZeroPage (R163). -/
def execRorZp (b : Byte) (s : State) : Host.Outcome State Fault Refusal :=
  .next (s.rotateRight (s.readByte (eaZeroPage b)) .zeroPage)

/-- ROR ZeroPage,X (R164). -/
def execRorZpX (b : Byte) (s : State) : Host.Outcome State Fault Refusal :=
  .next (s.rotateRight (s.readByte (eaZeroPageX b s)) .zeroPageX)

/-- ROR Absolute (R165). -/
def execRorAbs (w : Addr) (s : State) : Host.Outcome State Fault Refusal :=
  .next (s.rotateRight (s.readByte (eaAbsolute w)) .absolute)

/-- ROR Absolute,X (R166). -/
def execRorAbsX (w : Addr) (s : State) : Host.Outcome State Fault Refusal :=
  .next (s.rotateRight (s.readByte (eaAbsoluteX w s)) .absoluteX)

end Sys2Proof.Machine
end

