-- ==== Sys2Proof/Machine/Store.lean ====
section
/-! DEFINITION. STA (spec/43_addressed.md R141, R152 to R158), run after the opcode fetch, so that
PC is at the first operand byte. -/

namespace Sys2Proof.Machine

/-- `Execute(STA, ea)` (R141), which writes no flag, and the PC sequencing of the mode. -/
def State.store (s : State) (ea : Addr) (mode : Mode) : State := (s.writeByte ea s.a).finish mode

/-- STA ZeroPage (R152). -/
def execStaZp (b : Byte) (s : State) : Host.Outcome State Fault Refusal :=
  .next (s.store (eaZeroPage b) .zeroPage)

/-- STA ZeroPage,X (R153). -/
def execStaZpX (b : Byte) (s : State) : Host.Outcome State Fault Refusal :=
  .next (s.store (eaZeroPageX b s) .zeroPageX)

/-- STA Absolute (R154). -/
def execStaAbs (w : Addr) (s : State) : Host.Outcome State Fault Refusal :=
  .next (s.store (eaAbsolute w) .absolute)

/-- STA Absolute,X (R155). -/
def execStaAbsX (w : Addr) (s : State) : Host.Outcome State Fault Refusal :=
  .next (s.store (eaAbsoluteX w s) .absoluteX)

/-- STA Absolute,Y (R156). -/
def execStaAbsY (w : Addr) (s : State) : Host.Outcome State Fault Refusal :=
  .next (s.store (eaAbsoluteY w s) .absoluteY)

/-- STA Indirect,X (R157). -/
def execStaIndX (b : Byte) (s : State) : Host.Outcome State Fault Refusal :=
  .next (s.store (eaIndirectX b s) .indirectX)

/-- STA Indirect,Y (R158). -/
def execStaIndY (b : Byte) (s : State) : Host.Outcome State Fault Refusal :=
  .next (s.store (eaIndirectY b s) .indirectY)

end Sys2Proof.Machine
end

