-- ==== Sys2Proof/WellFormed.lean ====
section
/-! DEFINITION. Which raw instructions are instructions of this core (spec/30_encoding.md R66, R70, R71). -/

namespace Sys2Proof

/-- The modes each addressing-mode handler takes (R66; log 4). -/
def AddressedOp.allowsMode (op : AddressedOp) : Mode → Bool
  | .zeroPage => true
  | .zeroPageX => true
  | .absolute => true
  | .absoluteX => true
  | .immediate => op == .lda
  | .absoluteY => op == .lda || op == .sta
  | .indirectX => op == .lda || op == .sta
  | .indirectY => op == .lda || op == .sta
  | .zeroPageY => false
  | .noneAddressing => false

/-- BRK and the implied handlers carry NoneAddressing (R73); the others take the modes of R66. -/
def Handler.allowsMode : Handler → Mode → Bool
  | .brk, m => m == .noneAddressing
  | .implied _, m => m == .noneAddressing
  | .addressed op, m => op.allowsMode m

/-- The operand has the size the mode's format gives it (R61 to R63). -/
def Operand.fits : Operand → Format → Bool
  | .none, f => f == .implied
  | .byte _, f => f == .byteOperand
  | .word _, f => f == .wordOperand

/-- A raw instruction with a row in R66 and an operand of that row's size: what an assembler must not refuse (R71). -/
def RawInstr.wellFormed (r : RawInstr) : Bool :=
  r.handler.allowsMode r.mode && r.operand.fits r.mode.format

/-- An instruction is well formed if its raw form is. -/
def Instr.wellFormed (i : Instr) : Bool := i.raw.wellFormed

end Sys2Proof
end

