-- ==== Sys2Proof/Decode.lean ====
section
/-! DEFINITION. The decoder and the encoder (spec/30_encoding.md R60 to R73). -/

namespace Sys2Proof

open Sys2Proof.Machine

/-- One row of the opcode map (R66); every row compares the whole byte (R65). -/
structure OpcodeRow where
  opcode : Byte
  handler : Handler
  mode : Mode
  deriving DecidableEq, Repr

/-- The rows of BRK and of the implied handlers (R66). -/
def impliedRows : List OpcodeRow :=
  [⟨0x00, .brk, .noneAddressing⟩,
   ⟨0xAA, .implied .tax, .noneAddressing⟩,
   ⟨0x8A, .implied .txa, .noneAddressing⟩,
   ⟨0xCA, .implied .dex, .noneAddressing⟩,
   ⟨0xE8, .implied .inx, .noneAddressing⟩,
   ⟨0xA8, .implied .tay, .noneAddressing⟩,
   ⟨0x98, .implied .tya, .noneAddressing⟩,
   ⟨0x88, .implied .dey, .noneAddressing⟩,
   ⟨0xC8, .implied .iny, .noneAddressing⟩]

/-- The rows of LDA (R66). -/
def ldaRows : List OpcodeRow :=
  [⟨0xA9, .addressed .lda, .immediate⟩,
   ⟨0xA5, .addressed .lda, .zeroPage⟩,
   ⟨0xB5, .addressed .lda, .zeroPageX⟩,
   ⟨0xAD, .addressed .lda, .absolute⟩,
   ⟨0xBD, .addressed .lda, .absoluteX⟩,
   ⟨0xB9, .addressed .lda, .absoluteY⟩,
   ⟨0xA1, .addressed .lda, .indirectX⟩,
   ⟨0xB1, .addressed .lda, .indirectY⟩]

/-- The rows of STA (R66). -/
def staRows : List OpcodeRow :=
  [⟨0x85, .addressed .sta, .zeroPage⟩,
   ⟨0x95, .addressed .sta, .zeroPageX⟩,
   ⟨0x8D, .addressed .sta, .absolute⟩,
   ⟨0x9D, .addressed .sta, .absoluteX⟩,
   ⟨0x99, .addressed .sta, .absoluteY⟩,
   ⟨0x81, .addressed .sta, .indirectX⟩,
   ⟨0x91, .addressed .sta, .indirectY⟩]

/-- The rows of ROL and ROR (R66). -/
def shiftRows : List OpcodeRow :=
  [⟨0x26, .addressed .rol, .zeroPage⟩,
   ⟨0x36, .addressed .rol, .zeroPageX⟩,
   ⟨0x2E, .addressed .rol, .absolute⟩,
   ⟨0x3E, .addressed .rol, .absoluteX⟩,
   ⟨0x66, .addressed .ror, .zeroPage⟩,
   ⟨0x76, .addressed .ror, .zeroPageX⟩,
   ⟨0x6E, .addressed .ror, .absolute⟩,
   ⟨0x7E, .addressed .ror, .absoluteX⟩]

/-- The opcode map (R66; the 28 values of the 6502 are PRESUMED by the spec, log 3). -/
def opcodeTable : List OpcodeRow := impliedRows ++ ldaRows ++ staRows ++ shiftRows

/-- `decode : UInt8 -> Option (Handler x Mode)` of R73: none exactly for the values of R68. -/
def decodeOpcode (op : Byte) : Option (Handler × Mode) :=
  (opcodeTable.find? (fun r => r.opcode == op)).map (fun r => (r.handler, r.mode))

/-- Why bytes are no instruction. -/
inductive DecodeError where
  /-- The opcode has no row (R68). -/
  | unimplementedOpcode (op : Byte)
  /-- An addressing-mode handler with NoneAddressing, a defect of the table (R70, 60_exceptions.md R202). -/
  | invalidAddressingMode (op : Byte)
  /-- The bytes end before the instruction does; a fetch, which reads three bytes, never meets it (log 11). -/
  | truncated
  deriving DecidableEq, Repr

/-- What the decoder answers: an instruction and the bytes after it, or a rejection by name. -/
inductive Decoded where
  | instr (i : Instr) (rest : List Byte)
  | reject (e : DecodeError)
  deriving DecidableEq, Repr

/-- The operand bytes of a format, assembled little-endian (R61 to R64), and the bytes after them. -/
def takeOperand : Format → List Byte → Option (Operand × List Byte)
  | .implied, bytes => some (.none, bytes)
  | .byteOperand, b :: rest => some (.byte b, rest)
  | .wordOperand, lo :: hi :: rest => some (.word (wordOf lo hi), rest)
  | _, _ => none

/-- The implied instructions by handler (R66). -/
def impliedInstr : ImpliedOp → Instr
  | .tax => .tax
  | .txa => .txa
  | .dex => .dex
  | .inx => .inx
  | .tay => .tay
  | .tya => .tya
  | .dey => .dey
  | .iny => .iny

/-- The LDA instructions by mode and operand (R66). -/
def ldaInstr : Mode → Operand → Option Instr
  | .immediate, .byte b => some (.ldaImm b)
  | .zeroPage, .byte b => some (.ldaZp b)
  | .zeroPageX, .byte b => some (.ldaZpX b)
  | .absolute, .word w => some (.ldaAbs w)
  | .absoluteX, .word w => some (.ldaAbsX w)
  | .absoluteY, .word w => some (.ldaAbsY w)
  | .indirectX, .byte b => some (.ldaIndX b)
  | .indirectY, .byte b => some (.ldaIndY b)
  | _, _ => none

/-- The STA instructions by mode and operand (R66). -/
def staInstr : Mode → Operand → Option Instr
  | .zeroPage, .byte b => some (.staZp b)
  | .zeroPageX, .byte b => some (.staZpX b)
  | .absolute, .word w => some (.staAbs w)
  | .absoluteX, .word w => some (.staAbsX w)
  | .absoluteY, .word w => some (.staAbsY w)
  | .indirectX, .byte b => some (.staIndX b)
  | .indirectY, .byte b => some (.staIndY b)
  | _, _ => none

/-- The ROL instructions by mode and operand (R66). -/
def rolInstr : Mode → Operand → Option Instr
  | .zeroPage, .byte b => some (.rolZp b)
  | .zeroPageX, .byte b => some (.rolZpX b)
  | .absolute, .word w => some (.rolAbs w)
  | .absoluteX, .word w => some (.rolAbsX w)
  | _, _ => none

/-- The ROR instructions by mode and operand (R66). -/
def rorInstr : Mode → Operand → Option Instr
  | .zeroPage, .byte b => some (.rorZp b)
  | .zeroPageX, .byte b => some (.rorZpX b)
  | .absolute, .word w => some (.rorAbs w)
  | .absoluteX, .word w => some (.rorAbsX w)
  | _, _ => none

/-- The instruction of a raw instruction, if it is one of this core's (R66, R71). -/
def RawInstr.toInstr (r : RawInstr) : Option Instr :=
  match r.handler with
  | .brk => if r.mode = .noneAddressing ∧ r.operand = .none then some .brk else none
  | .implied op => if r.mode = .noneAddressing ∧ r.operand = .none then some (impliedInstr op) else none
  | .addressed .lda => ldaInstr r.mode r.operand
  | .addressed .sta => staInstr r.mode r.operand
  | .addressed .rol => rolInstr r.mode r.operand
  | .addressed .ror => rorInstr r.mode r.operand

/-- True of a descriptor whose resolution raises InvalidAddressingMode (41_execution_step.md R106, R112). -/
def lacksOperandMode : Handler → Mode → Bool
  | .addressed _, .noneAddressing => true
  | _, _ => false

/-- The instruction of a descriptor and the bytes after its opcode.
A pair of handler and mode that has no row of R66 gets no meaning (log 13). -/
def decodeDescriptor (op : Byte) (h : Handler) (m : Mode) (bytes : List Byte) : Decoded :=
  if lacksOperandMode h m then .reject (.invalidAddressingMode op)
  else
    match takeOperand m.format bytes with
    | none => .reject .truncated
    | some (o, rest) =>
      match RawInstr.toInstr ⟨h, m, o⟩ with
      | none => .reject (.unimplementedOpcode op)
      | some i => .instr i rest

/-- The decoder: the opcode byte decides, the operand bytes follow it (R60, R65, R67). Total on any bytes. -/
def decode : List Byte → Decoded
  | [] => .reject .truncated
  | op :: bytes =>
    match decodeOpcode op with
    | none => .reject (.unimplementedOpcode op)
    | some (h, m) => decodeDescriptor op h m bytes

/-- The opcode byte of each instruction (R66). -/
def Instr.opcode : Instr → Byte
  | .brk => 0x00
  | .tax => 0xAA
  | .txa => 0x8A
  | .dex => 0xCA
  | .inx => 0xE8
  | .tay => 0xA8
  | .tya => 0x98
  | .dey => 0x88
  | .iny => 0xC8
  | .ldaImm _ => 0xA9
  | .ldaZp _ => 0xA5
  | .ldaZpX _ => 0xB5
  | .ldaAbs _ => 0xAD
  | .ldaAbsX _ => 0xBD
  | .ldaAbsY _ => 0xB9
  | .ldaIndX _ => 0xA1
  | .ldaIndY _ => 0xB1
  | .staZp _ => 0x85
  | .staZpX _ => 0x95
  | .staAbs _ => 0x8D
  | .staAbsX _ => 0x9D
  | .staAbsY _ => 0x99
  | .staIndX _ => 0x81
  | .staIndY _ => 0x91
  | .rolZp _ => 0x26
  | .rolZpX _ => 0x36
  | .rolAbs _ => 0x2E
  | .rolAbsX _ => 0x3E
  | .rorZp _ => 0x66
  | .rorZpX _ => 0x76
  | .rorAbs _ => 0x6E
  | .rorAbsX _ => 0x7E

/-- The operand bytes, the low byte of a word first (R61 to R63). -/
def Operand.bytes : Operand → List Byte
  | .none => []
  | .byte b => [b]
  | .word w => [lowByte w, highByte w]

/-- The encoder: the opcode byte, then the operand bytes in increasing address order (R60, R66). -/
def encode (i : Instr) : List Byte := i.opcode :: i.raw.operand.bytes

/-- The first three bytes of a word numbered as spec/opcode_table.json numbers bits: bit 0 is the least significant
bit of the first byte; the bits from nbits up are 0, and three bytes are the longest instruction (R67). -/
def tableBytes (nbits w : Nat) : List Byte :=
  let v := w % 2 ^ nbits
  [BitVec.ofNat 8 v, BitVec.ofNat 8 (v / 256), BitVec.ofNat 8 (v / 65536)]

/-- The instruction the decoder reads from an opcode-table word. -/
def decodeTableWord (nbits w : Nat) : Option Instr :=
  match decode (tableBytes nbits w) with
  | .instr i _ => some i
  | .reject _ => none

end Sys2Proof
end

