-- ==== Sys2Proof/Machine/Fetch.lean ====
section
/-! DEFINITION. What a step does before its instruction runs: whether it is enabled, the fetch and the decoding
(spec/41_execution_step.md R100 to R104). -/

namespace Sys2Proof.Machine

/-- What a step finds. -/
inductive Fetched where
  /-- No step is enabled (R100). -/
  | notEnabled (f : Fault)
  /-- The opcode raises a fault (R104, R106). -/
  | raises (kind : FaultKind) (op : Byte)
  /-- An instruction to run. -/
  | instr (i : Instr)
  deriving DecidableEq, Repr

/-- The three bytes from PC up: the opcode and the longest operand. Reading has no side effect (20_memory.md R41), so
reading a byte the instruction does not have is not observable (log 11). -/
def State.instrBytes (s : State) : List Byte := s.mem.readBytes s.pc 3

/-- What the decoded bytes of a running core mean for the step (R104, R106). -/
def ofDecoded : Decoded → Byte → Fetched
  | .instr i _, _ => .instr i
  | .reject (.unimplementedOpcode _), op => .raises .unimplementedOpcode op
  | .reject (.invalidAddressingMode _), op => .raises .invalidAddressingMode op
  | .reject .truncated, op => .raises .unimplementedOpcode op

/-- The fetch and the decoding of a step; a step is enabled only when the run state is Running (R100). -/
def fetch (s : State) : Fetched :=
  match s.run with
  | .running => ofDecoded (decode s.instrBytes) (s.readByte s.pc)
  | .halted => .notEnabled .notEnabledHalted
  | .faulted kind op pc => .notEnabled (.notEnabledFaulted kind op pc)

/-- The state after the opcode fetch: `PC <- pc0 +16 1` (R102). -/
def State.pastOpcode (s : State) : State := s.advancePc 1

/-- The bytes of an opcode-table word placed where the next step fetches, and the run state that enables the step
(log 14). -/
def State.placeInstr (s : State) (bytes : List Byte) : State :=
  (s.setMem (s.mem.writeBytes s.pc bytes)).setRun .running

end Sys2Proof.Machine
end

