-- ==== Sys2Proof/Machine/Step.lean ====
section
/-! DEFINITION. One fetch-decode-execute step (spec/41_execution_step.md R112). -/

namespace Sys2Proof.Machine

/-- The step: stuck when it is not enabled (R100), the taking of a fault in the state before the step (R104, R206), or
the instruction's meaning in the state after the opcode fetch (R102, R103). -/
def step (s : State) : Host.Outcome State Fault Refusal :=
  match fetch s with
  | .notEnabled f => .fault f
  | .raises kind op => .next (s.raise kind op)
  | .instr i => exec i s.pastOpcode

/-- The state with an opcode-table word stored where `step` fetches its next instruction, at PC (log 14). -/
def State.withFetchWord (s : State) (nbits w : Nat) : State := s.placeInstr (tableBytes nbits w)

end Sys2Proof.Machine
end

