-- ==== Sys2Proof/Machine/Assembler.lean ====
section
/-! DEFINITION. The assembler syntax (spec/30_encoding.md R71) over lists of characters; syntax only (D21, log 17). -/

namespace Sys2Proof.Machine.Assembler

/-- A hex digit, written in capitals as R71 writes it. -/
def hexDigits : List Char := ['0', '1', '2', '3', '4', '5', '6', '7', '8', '9', 'A', 'B', 'C', 'D', 'E', 'F']

/-- The character of a nibble. -/
def hexDigit (n : Nat) : Char := hexDigits.getD n '0'

/-- The nibble of a character, none where it is no hex digit. -/
def hexValue (c : Char) : Option Nat := hexDigits.findIdx? (fun d => d == c)

/-- Two hex digits. -/
def byteText (b : Byte) : List Char := [hexDigit (b.toNat / 16), hexDigit (b.toNat % 16)]

/-- An operand's digits: two select a zero-page mode, four an absolute mode (R71). -/
def operandText : Operand → List Char
  | .none => []
  | .byte b => '$' :: byteText b
  | .word w => '$' :: (byteText (highByte w) ++ byteText (lowByte w))

/-- The column "mnemonic" of R66. -/
def mnemonic : Handler → List Char
  | .brk => ['B', 'R', 'K']
  | .implied .tax => ['T', 'A', 'X']
  | .implied .txa => ['T', 'X', 'A']
  | .implied .dex => ['D', 'E', 'X']
  | .implied .inx => ['I', 'N', 'X']
  | .implied .tay => ['T', 'A', 'Y']
  | .implied .tya => ['T', 'Y', 'A']
  | .implied .dey => ['D', 'E', 'Y']
  | .implied .iny => ['I', 'N', 'Y']
  | .addressed .lda => ['L', 'D', 'A']
  | .addressed .sta => ['S', 'T', 'A']
  | .addressed .rol => ['R', 'O', 'L']
  | .addressed .ror => ['R', 'O', 'R']

/-- Every handler, for looking a mnemonic up. -/
def handlers : List Handler :=
  [.brk, .implied .tax, .implied .txa, .implied .dex, .implied .inx, .implied .tay, .implied .tya, .implied .dey,
   .implied .iny, .addressed .lda, .addressed .sta, .addressed .rol, .addressed .ror]

/-- The syntax of a mode around the operand's digits (R71). -/
def modeText (m : Mode) (digits : List Char) : List Char :=
  match m with
  | .noneAddressing => []
  | .immediate => ' ' :: '#' :: digits
  | .zeroPage => ' ' :: digits
  | .zeroPageX => ' ' :: (digits ++ [',', 'X'])
  | .zeroPageY => ' ' :: (digits ++ [',', 'Y'])
  | .absolute => ' ' :: digits
  | .absoluteX => ' ' :: (digits ++ [',', 'X'])
  | .absoluteY => ' ' :: (digits ++ [',', 'Y'])
  | .indirectX => ' ' :: '(' :: (digits ++ [',', 'X', ')'])
  | .indirectY => ' ' :: '(' :: (digits ++ [')', ',', 'Y'])

/-- The text of an instruction. -/
def print (r : RawInstr) : List Char := mnemonic r.handler ++ modeText r.mode (operandText r.operand)

/-- Two hex digits read as a byte. -/
def readByte (c d : Char) : Option Byte :=
  match hexValue c, hexValue d with
  | some h, some l => some (BitVec.ofNat 8 (16 * h + l))
  | _, _ => none

/-- Two hex digits at the head of a text. -/
def readShort : List Char → Option (Operand × List Char)
  | c :: d :: rest => (readByte c d).map (fun b => (.byte b, rest))
  | _ => none

/-- Hex digits after their mark: four where four stand there, else two (R71). -/
def readDigits : List Char → Option (Operand × List Char)
  | c :: d :: e :: f :: rest =>
    match readByte c d, readByte e f with
    | some hi, some lo => some (.word (wordOf lo hi), rest)
    | _, _ => readShort (c :: d :: e :: f :: rest)
  | text => readShort text

/-- A number: the marks `$` and `0x` both stand for hex (R71). -/
def readNumber : List Char → Option (Operand × List Char)
  | '$' :: text => readDigits text
  | '0' :: 'x' :: text => readDigits text
  | _ => none

/-- The mode of a plain number by its size and by what follows it (R71). -/
def plainMode : Operand → List Char → Option Mode
  | .byte _, [] => some .zeroPage
  | .byte _, [',', 'X'] => some .zeroPageX
  | .byte _, [',', 'Y'] => some .zeroPageY
  | .word _, [] => some .absolute
  | .word _, [',', 'X'] => some .absoluteX
  | .word _, [',', 'Y'] => some .absoluteY
  | _, _ => none

/-- The mode of a number in brackets by what follows it (R71). -/
def bracketMode : Operand → List Char → Option Mode
  | .byte _, [',', 'X', ')'] => some .indirectX
  | .byte _, [')', ',', 'Y'] => some .indirectY
  | _, _ => none

/-- The mode of a number after `#` (R71). -/
def hashMode : Operand → List Char → Option Mode
  | .byte _, [] => some .immediate
  | _, _ => none

/-- A number and its mode. -/
def withMode (mode : Operand → List Char → Option Mode) (text : List Char) : Option (Mode × Operand) :=
  (readNumber text).bind (fun n => (mode n.1 n.2).map (fun m => (m, n.1)))

/-- What follows the mnemonic (R71). -/
def parseOperand : List Char → Option (Mode × Operand)
  | [] => some (.noneAddressing, .none)
  | ' ' :: '#' :: text => withMode hashMode text
  | ' ' :: '(' :: text => withMode bracketMode text
  | ' ' :: text => withMode plainMode text
  | _ => none

/-- The raw instruction a text writes. -/
def parse (text : List Char) : Option RawInstr :=
  match handlers.find? (fun h => mnemonic h == text.take 3), parseOperand (text.drop 3) with
  | some h, some (m, o) => some ⟨h, m, o⟩
  | _, _ => none

/-- The bytes of a text; a combination with no row in R66 is refused (R71). -/
def assemble (text : List Char) : Option (List Byte) :=
  (parse text).bind (fun r => r.toInstr.map encode)

end Sys2Proof.Machine.Assembler
end

