-- ==== Sys2Proof/Machine/Reference.lean ====
section
/-! DEFINITION. The step in the words of the spec's pseudocode (spec/41_execution_step.md R112): the opcode byte is
decoded alone, and the operand is read from memory by the resolver. It takes the opcode map as an argument, so that it
also says what a defective map does (60_exceptions.md R202). -/

namespace Sys2Proof.Machine.Reference

/-- `Implied(h)` (42_implied.md R120 to R127). -/
def implied (s : State) : ImpliedOp → State
  | .tax => (s.setX s.a).setZN s.a
  | .txa => (s.setA s.x).setZN s.x
  | .dex => (s.setX (s.x - 1)).setZN (s.x - 1)
  | .inx => (s.setX (s.x + 1)).setZN (s.x + 1)
  | .tay => (s.setY s.a).setZN s.a
  | .tya => (s.setA s.y).setZN s.y
  | .dey => (s.setY (s.y - 1)).setZN (s.y - 1)
  | .iny => (s.setY (s.y + 1)).setZN (s.y + 1)

/-- `Execute(h, ea)` (43_addressed.md R140 to R143). -/
def execute (s : State) (ea : Addr) : AddressedOp → State
  | .lda => (s.setA (s.readByte ea)).setZN (s.readByte ea)
  | .sta => s.writeByte ea s.a
  | .rol => (s.setA (s.readByte ea <<< 1)).setZN (s.readByte ea <<< 1)
  | .ror => (s.setA (s.readByte ea >>> 1)).setZN (s.readByte ea >>> 1)

/-- The step of a running core under an opcode map (R112). -/
def step (map : Byte → Option (Handler × Mode)) (s : State) : State :=
  let op := s.readByte s.pc
  let fetched := s.setPc (s.pc + 1)
  match map op with
  | none => s.raise .unimplementedOpcode op
  | some (.brk, _) => fetched.halt
  | some (.implied h, _) => implied fetched h
  | some (.addressed h, mode) =>
    match resolve mode fetched with
    | none => s.raise .invalidAddressingMode op
    | some (ea, resolved) => (execute resolved ea h).trailingAdvance

end Sys2Proof.Machine.Reference
end

