-- ==== Sys2Proof/Machine/Lifecycle.lean ====
section
/-! DEFINITION. The host's operations between steps but for the step itself (spec/70_reset_and_hazards.md R230 to
R237); `run` and the sum of the operations are in Session.lean. -/

namespace Sys2Proof.Machine

/-- `reset()` (R231): A, X, Y and P zeroed, PC re-derived from the word at 0xFFFC, the run state Running. Memory is
unchanged, and any run state may be left by it. -/
def State.hostReset (s : State) : State :=
  (((((s.setA 0x00).setX 0x00).setY 0x00).setP 0x00).setPc (s.mem.readWord Config.resetVector)).setRun .running

/-- The memory after `load` (R232): the copy first, then the reset vector, which wins where they overlap (log 15). -/
def loadedMemory (m : Memory) (img : List Byte) : Memory :=
  (m.writeBytes Config.loadAddress img).writeWord Config.resetVector Config.loadAddress

/-- `load(image)` (R232), refused for an image longer than 0x7FFF bytes (R233). No register and not the run state
change. -/
def State.hostLoad (s : State) (img : List Byte) : Host.Outcome State Fault Refusal :=
  if img.length ≤ Config.maxImageLength then .next (s.setMem (loadedMemory s.mem img))
  else .refused (.imageTooLong img.length)

/-- The registers the host may write (R236). -/
inductive RegWrite where
  | a (v : Byte)
  | x (v : Byte)
  | y (v : Byte)
  | p (v : Byte)
  | pc (t : Addr)
  deriving DecidableEq, Repr

/-- `set_reg` (R236): the register written with any value of its width, nothing else changed. -/
def State.setReg (s : State) : RegWrite → State
  | .a v => s.setA v
  | .x v => s.setX v
  | .y v => s.setY v
  | .p v => s.setP v
  | .pc t => s.setPc t

/-- What `inspect()` reads: the registers, the run state and with it the fault record (R235). -/
structure Inspection where
  a : Byte
  x : Byte
  y : Byte
  p : Byte
  pc : Addr
  run : RunState
  deriving DecidableEq, Repr

/-- `inspect()` (R235), in every run state; it changes nothing. -/
def State.inspect (s : State) : Inspection := ⟨s.a, s.x, s.y, s.p, s.pc, s.run⟩

/-- `read_mem(a)` (R237), equal to `read_byte(a)`. -/
def State.readMem (s : State) (a : Addr) : Byte := s.readByte a

end Sys2Proof.Machine
end

