-- ==== Sys2Proof/Machine/Session.lean ====
section
/-! DEFINITION. The host's operations as one interface, and `run` under a step budget of the host's
(spec/70_reset_and_hazards.md R230, R234, R243, R244). -/

namespace Sys2Proof.Machine

/-- The host's operations that act on the state, each one atomic transaction between steps (R230, R244). -/
inductive HostOp where
  | load (img : List Byte)
  | reset
  | step
  | setReg (r : RegWrite)
  deriving DecidableEq, Repr

/-- One transaction (R230). -/
def transact (o : HostOp) (s : State) : Host.Outcome State Fault Refusal :=
  match o with
  | .load img => s.hostLoad img
  | .reset => .next s.hostReset
  | .step => step s
  | .setReg r => .next (s.setReg r)

/-- Stepping until the run state is not Running, or until the host's step budget is spent (R110, R234, R243); the
budget running out is no state of the core, so the answer is the state reached. -/
def runFor : Nat → State → Host.Outcome State Fault Refusal
  | 0, s => .next s
  | n + 1, s =>
    if s.run = .running then
      match step s with
      | .next t => runFor n t
      | .fault f => .fault f
      | .refused r => .refused r
    else .next s

/-- `run(image)` under a step budget: load, reset, step until not Running (R234). -/
def runImage (budget : Nat) (img : List Byte) (s : State) : Host.Outcome State Fault Refusal :=
  match s.hostLoad img with
  | .next t => runFor budget t.hostReset
  | .fault f => .fault f
  | .refused r => .refused r

end Sys2Proof.Machine
end

