-- ==== Sys2Proof/Safety.lean ====
section
/-! DEFINITION. What a run's end is (spec/70_reset_and_hazards.md R245, 41_execution_step.md R113) and the invariant
that the steps keep, in the terms the statements use. -/

namespace Sys2Proof.Machine

/-- `t` is reached from `s` by some number of steps. -/
def RunsTo (s t : State) : Prop := ∃ n, Sys2Proof.core.run n s = .next t

/-- A run that ends well, in Halted (R245). -/
def EndsWell (s t : State) : Prop := RunsTo s t ∧ t.run = .halted

/-- A run that ends badly, in Faulted (R245). -/
def EndsBadly (s t : State) : Prop := RunsTo s t ∧ ∃ kind op pc, t.run = .faulted kind op pc

/-- A run that does not end (R113, R245): after any number of steps the core is Running. -/
def NeverEnds (s : State) : Prop := ∀ n, ∃ t, Sys2Proof.core.run n s = .next t ∧ t.run = .running

/-- What is observed of a run that ended well (R245). -/
structure Observation where
  a : Byte
  x : Byte
  y : Byte
  p : Byte
  pc : Addr
  mem : Memory
  deriving DecidableEq, Repr

/-- The observation at the end of a run (R245). -/
def State.observe (s : State) : Observation := ⟨s.a, s.x, s.y, s.p, s.pc, s.mem⟩

/-- A fault record tells the truth about the state the fault left: an opcode of no row, at PC (R36, R201, R206). -/
def State.recordTrue (s : State) : Bool :=
  match s.run with
  | .faulted kind op pc =>
    kind == .unimplementedOpcode && pc == s.pc && op == s.readByte pc && decodeOpcode op == none
  | _ => true

/-- The invariant of the steps: the memory has its canonical form, the reserved bits of P are 0 as reset leaves them
(10_state.md R30), Z and N are not both set (R31: both come from one byte), and a fault record tells the truth. -/
abbrev State.Inv (s : State) : Prop :=
  s.mem.wf ∧ s.p &&& reservedMask = 0 ∧ ¬ (zFlag s.p = true ∧ nFlag s.p = true) ∧ s.recordTrue = true

end Sys2Proof.Machine
end

