-- ==== Sys2Proof/Certificates/Slice0/Obligations.lean ====
section
/-! DEFINITION. The statements for the provers, and the predicates they are written with. -/

namespace Sys2Proof.Claims

open Sys2Proof.Machine

/-- The bytes stand in memory from `a` up, the address wrapping at 0xFFFF. -/
def bytesAt (m : Memory) (a : Addr) : List Byte → Bool
  | [] => true
  | b :: bytes => m.read a == b && bytesAt m (a + 1) bytes

/-- The core is Running with the bytes at PC. -/
abbrev Ready (s : State) (bytes : List Byte) : Prop := s.run = .running ∧ bytesAt s.mem s.pc bytes = true

/-- The 32 opcode values of 30_encoding.md R66. -/
def opcodeValues : List Byte :=
  [0x00, 0xAA, 0x8A, 0xCA, 0xE8, 0xA8, 0x98, 0x88, 0xC8, 0xA9, 0xA5, 0xB5, 0xAD, 0xBD, 0xB9, 0xA1,
   0xB1, 0x85, 0x95, 0x8D, 0x9D, 0x99, 0x81, 0x91, 0x26, 0x36, 0x2E, 0x3E, 0x66, 0x76, 0x6E, 0x7E]

/-- Every byte of memory reads as before. -/
def SameMemory (s t : State) : Prop := ∀ k : Addr, t.mem.read k = s.mem.read k

/-- P after SetZN(r) (10_state.md R31), bit by bit: Z says that r is 0, N is bit 7 of r, the reserved bits are kept. -/
def FlagsOf (before after r : Byte) : Prop :=
  after.getLsbD 1 = decide (r.toNat = 0) ∧ after.getLsbD 7 = decide (128 ≤ r.toNat) ∧
  ∀ i, i ≠ 1 → i ≠ 7 → after.getLsbD i = before.getLsbD i

/-- PC advanced by `hw` bytes under HARDWARE and `sc` under SOURCE_COMPAT, modulo 65,536. -/
def PcMoved (s t : State) (hw sc : Nat) : Prop :=
  t.pc.toNat = (s.pc.toNat + (match s.pcSeq with | .hardware => hw | .sourceCompat => sc)) % 65536

/-- A is `v`, the flags come from `v`; X, Y, the run state, the configuration and every byte of memory are as before. -/
def AfterResultA (s t : State) (v : Byte) : Prop :=
  t.a = v ∧ FlagsOf s.p t.p v ∧ t.x = s.x ∧ t.y = s.y ∧ t.run = s.run ∧ t.pcSeq = s.pcSeq ∧ SameMemory s t

/-- X is `v`, the flags come from `v`; A, Y, the run state, the configuration and every byte of memory are as before. -/
def AfterResultX (s t : State) (v : Byte) : Prop :=
  t.x = v ∧ FlagsOf s.p t.p v ∧ t.a = s.a ∧ t.y = s.y ∧ t.run = s.run ∧ t.pcSeq = s.pcSeq ∧ SameMemory s t

/-- Y is `v`, the flags come from `v`; A, X, the run state, the configuration and every byte of memory are as before. -/
def AfterResultY (s t : State) (v : Byte) : Prop :=
  t.y = v ∧ FlagsOf s.p t.p v ∧ t.a = s.a ∧ t.x = s.x ∧ t.run = s.run ∧ t.pcSeq = s.pcSeq ∧ SameMemory s t

/-- The byte at `ea` is A; every other byte, every register but PC, P, the run state and the configuration are as
before. -/
def AfterStore (s t : State) (ea : Addr) : Prop :=
  t.mem.read ea = s.a ∧ (∀ k : Addr, k ≠ ea → t.mem.read k = s.mem.read k) ∧
  t.a = s.a ∧ t.x = s.x ∧ t.y = s.y ∧ t.p = s.p ∧ t.run = s.run ∧ t.pcSeq = s.pcSeq

/-- A is the byte `m` shifted left, bit 7 lost and bit 0 clear (43_addressed.md R142). -/
def AfterRol (s t : State) (m : Byte) : Prop := t.a.toNat = 2 * m.toNat % 256 ∧ AfterResultA s t t.a

/-- A is the byte `m` shifted right, bit 0 lost and bit 7 clear (43_addressed.md R143). -/
def AfterRor (s t : State) (m : Byte) : Prop := t.a.toNat = m.toNat / 2 ∧ AfterResultA s t t.a

/-- Every register, P, the run state, the configuration and every byte of memory are as before; PC may differ. -/
def SameButPc (s t : State) : Prop :=
  t.a = s.a ∧ t.x = s.x ∧ t.y = s.y ∧ t.p = s.p ∧ t.run = s.run ∧ t.pcSeq = s.pcSeq ∧ SameMemory s t

/-- Every register, PC, P, the configuration and every byte of memory are as before; the run state may differ. -/
def SameButRun (s t : State) : Prop :=
  t.a = s.a ∧ t.x = s.x ∧ t.y = s.y ∧ t.p = s.p ∧ t.pc = s.pc ∧ t.pcSeq = s.pcSeq ∧ SameMemory s t

/-- Two states that differ at most in P. -/
def SameButP (s t : State) : Prop :=
  t.a = s.a ∧ t.x = s.x ∧ t.y = s.y ∧ t.pc = s.pc ∧ t.mem = s.mem ∧ t.run = s.run ∧ t.pcSeq = s.pcSeq

/-- The column "n under SOURCE_COMPAT" of 41_execution_step.md R108, by mode. -/
def sourceCompatAdvance (m : Mode) : Nat :=
  if m = .noneAddressing then 1 else if m = .immediate then 2 else m.format.length + 1

end Sys2Proof.Claims

open Sys2Proof Sys2Proof.Machine Sys2Proof.Claims

/-! ## Encoding -/

/-- Words written out from the encodings of 30_encoding.md R61 to R63, R66 and the examples of R71. -/
def Obligations.WrittenOutWordsDecode : Prop :=
  decode [0x00] = .instr .brk [] ∧
  decode [0b10101010] = .instr .tax [] ∧
  decode [0b10101001, 0xC0] = .instr (.ldaImm 0xC0) [] ∧
  decode [0b10111101, 0x34, 0x12] = .instr (.ldaAbsX 0x1234) [] ∧
  decode [0b10011001, 0x34, 0x12] = .instr (.staAbsY 0x1234) [] ∧
  decode [0b10010001, 0x20] = .instr (.staIndY 0x20) [] ∧
  decode [0b00101110, 0x00, 0x02] = .instr (.rolAbs 0x0200) [] ∧
  decode [0b01100110, 0x10] = .instr (.rorZp 0x10) [] ∧
  decode [0x2A, 0x10] = .reject (.unimplementedOpcode 0x2A)

/-- Decoding the encoding of any instruction gives it back, with every operand at every value, whatever bytes follow. -/
def Obligations.DecodeOfEncodeIsTheInstruction : Prop :=
  ∀ (i : Instr) (rest : List Byte), decode (encode i ++ rest) = .instr i rest

/-- Bytes that decode to an instruction begin with its encoding: no instruction has two encodings. -/
def Obligations.DecodedBytesAreTheEncoding : Prop :=
  ∀ (bytes : List Byte) (i : Instr) (rest : List Byte), decode bytes = .instr i rest → bytes = encode i ++ rest

/-- The opcode byte alone rejects: bytes are rejected as unimplemented exactly when the opcode is none of R66's 32,
whatever the operand bytes are (30_encoding.md R65, R68). Which 32 values have a row is the spec's own decision D2
(log 3). -/
def Obligations.OpcodeByteAloneRejects : Prop :=
  ∀ (op : Byte) (bytes : List Byte),
    decode (op :: bytes) = .reject (.unimplementedOpcode op) ↔ op ∉ opcodeValues

/-- The raw instructions with a row in R66 and an operand of its size are the instructions, and no other is one
(30_encoding.md R66, R71). Which modes each mnemonic takes is the spec's own decision D3 (log 4). -/
def Obligations.OnlyTableRowsAreInstructions : Prop :=
  ∀ r : RawInstr,
    (r.wellFormed = true → ∃ i : Instr, r.toInstr = some i ∧ i.raw = r) ∧
    (r.wellFormed = false → r.toInstr = none)

/-- The assembler reads back the text of every instruction, and its bytes are the encoding (30_encoding.md R71; the
text form is the model's, log 17). -/
def Obligations.AssemblerReadsBackItsText : Prop :=
  ∀ i : Instr, Assembler.parse (Assembler.print i.raw) = some i.raw ∧
    Assembler.assemble (Assembler.print i.raw) = some (encode i)

/-! ## The step -/

/-- When the bytes at PC decode to an instruction and the core is Running, a step is that instruction's meaning in the
state whose PC is past the opcode byte (41_execution_step.md R102, R103). -/
def Obligations.StepRunsTheDecodedInstruction : Prop :=
  ∀ (s : State) (i : Instr) (rest : List Byte), s.run = .running →
    decode [s.mem.read s.pc, s.mem.read (s.pc + 1), s.mem.read (s.pc + 2)] = .instr i rest →
    step s = exec i { s with pc := s.pc + 1 }

/-- The same from the encoder: a Running core with the encoding of an instruction at PC runs it. -/
def Obligations.StepRunsTheEncodedInstruction : Prop :=
  ∀ (s : State) (i : Instr), Ready s (encode i) → step s = exec i { s with pc := s.pc + 1 }

/-- The step is the pseudocode of 41_execution_step.md R112, which decodes the opcode byte alone and lets the resolver
read the operand bytes from memory. -/
def Obligations.StepIsTheSpecsPseudocode : Prop :=
  ∀ s : State, s.run = .running → step s = .next (Reference.step decodeOpcode s)

/-- A step is enabled exactly in Running: there it answers a next state, and elsewhere it takes none
(41_execution_step.md R100). What a stopped core does is the spec's own decision D9 (log 6). -/
def Obligations.StepEnabledOnlyWhenRunning : Prop :=
  ∀ s : State,
    (s.run = .running → ∃ t, step s = .next t) ∧
    (s.run = .halted → step s = .fault .notEnabledHalted) ∧
    (∀ kind op pc, s.run = .faulted kind op pc → step s = .fault (.notEnabledFaulted kind op pc))

/-- The result of a step of a Running core is exactly one state, Running, Halted, or Faulted with everything else as
before (00_scope.md R10). -/
def Obligations.StepResultIsOneOfThree : Prop :=
  ∀ s : State, s.run = .running →
    ∃ t, step s = .next t ∧
      ((t.run = .running) ∨ (t.run = .halted) ∨
        (SameButRun s t ∧ ∃ kind op pc, t.run = .faulted kind op pc))

/-- Wraparound is not an error: whatever the registers, the operands and the place of the instruction, no implemented
instruction faults (60_exceptions.md R203). -/
def Obligations.NoImplementedInstructionFaults : Prop :=
  ∀ (s : State) (i : Instr), Ready s (encode i) →
    ∃ t, step s = .next t ∧ ∀ kind op pc, t.run ≠ .faulted kind op pc

/-- The transitions of the run state: BRK halts, every other implemented opcode keeps Running, an unimplemented one
faults with its record, and a host reset gives Running (10_state.md R35, R36). The Faulted state, the record and the run
state after reset are the spec's own decisions D9, D7 and D18 (logs 5, 6 and 14). -/
def Obligations.RunStateTransitions : Prop :=
  ∀ s : State,
    (s.run = .running → s.mem.read s.pc = 0x00 → ∃ t, step s = .next t ∧ t.run = .halted) ∧
    (s.run = .running → s.mem.read s.pc ≠ 0x00 → s.mem.read s.pc ∈ opcodeValues →
      ∃ t, step s = .next t ∧ t.run = .running) ∧
    (s.run = .running → s.mem.read s.pc ∉ opcodeValues →
      ∃ t, step s = .next t ∧ t.run = .faulted .unimplementedOpcode (s.mem.read s.pc) s.pc) ∧
    s.hostReset.run = .running

/-- An unimplemented opcode: the step is undone, the run state records the opcode and its address, and no step follows
(41_execution_step.md R104, 60_exceptions.md R201). What the fault leaves and records is the spec's own decision D7
(log 5), and the 32 opcode values are D2 (log 3). -/
def Obligations.UnimplementedOpcodeFaults : Prop :=
  ∀ s : State, s.run = .running → s.mem.read s.pc ∉ opcodeValues →
    ∃ t, step s = .next t ∧ t.run = .faulted .unimplementedOpcode (s.mem.read s.pc) s.pc ∧ SameButRun s t ∧
      ∀ u, step t ≠ .next u

/-- InvalidAddressingMode: under any opcode map that gives an addressing-mode handler NoneAddressing, the step is undone
and the fault recorded; the resolver answers nothing for that mode; and with the map of R66 no step raises it
(60_exceptions.md R202, 40_addressing_modes.md R91). What the fault leaves and records is the spec's own decision D8
(log 5). -/
def Obligations.InvalidAddressingModeFaults : Prop :=
  (∀ (map : Byte → Option (Handler × Mode)) (s : State) (h : AddressedOp),
    map (s.mem.read s.pc) = some (.addressed h, .noneAddressing) →
    (Reference.step map s).run = .faulted .invalidAddressingMode (s.mem.read s.pc) s.pc ∧
    SameButRun s (Reference.step map s)) ∧
  (∀ s : State, resolve .noneAddressing s = none) ∧
  (∀ s t : State, step s = .next t → ∀ op pc, t.run ≠ .faulted .invalidAddressingMode op pc)

/-- How far PC moves: by the encoded length under HARDWARE, by the column of R108 under SOURCE_COMPAT, and not at all
when the step raises (41_execution_step.md R108). The advances are the spec's own decision D1 (log 1). -/
def Obligations.PcAfterEachInstruction : Prop :=
  (∀ (s : State) (i : Instr), Ready s (encode i) →
    ∃ t, step s = .next t ∧ PcMoved s t (encode i).length (sourceCompatAdvance i.raw.mode)) ∧
  (∀ s t : State, step s = .next t → (∃ kind op pc, t.run = .faulted kind op pc) → t.pc = s.pc)

/-! ## BRK and the implied instructions -/

/-- BRK: nothing but the run state and, by the fetch, PC changes, and no step is enabled after it (44_brk.md R180,
41_execution_step.md R109). PC and what is unchanged after BRK are the spec's own decision D24 (log 7). -/
def Obligations.BrkHalts : Prop :=
  ∀ s : State,
    (∃ t, exec .brk s = .next t ∧ t.run = .halted ∧ SameButRun s t) ∧
    (Ready s [0x00] → ∃ t, step s = .next t ∧ t.run = .halted ∧ PcMoved s t 1 1 ∧
      t.a = s.a ∧ t.x = s.x ∧ t.y = s.y ∧ t.p = s.p ∧ t.pcSeq = s.pcSeq ∧ SameMemory s t ∧
      ∀ u, step t ≠ .next u)

/-- TAX and INX, whose opcode values stand in the source: what they write, their flags, and PC past the opcode, at the
meaning and at a step (42_implied.md R120, R123). -/
def Obligations.TaxAndInxFollowTheSource : Prop :=
  ∀ s : State,
    (∃ t, exec .tax s = .next t ∧ AfterResultX s t s.a ∧ t.pc = s.pc) ∧
    (∃ t, exec .inx s = .next t ∧ t.x.toNat = (s.x.toNat + 1) % 256 ∧ AfterResultX s t t.x ∧ t.pc = s.pc) ∧
    (Ready s [0xAA] → ∃ t, step s = .next t ∧ AfterResultX s t s.a ∧ PcMoved s t 1 1) ∧
    (Ready s [0xE8] →
      ∃ t, step s = .next t ∧ t.x.toNat = (s.x.toNat + 1) % 256 ∧ AfterResultX s t t.x ∧ PcMoved s t 1 1)

/-- TXA, TAY, TYA: the byte moved, the flags from it, nothing else changed but PC by the fetch (42_implied.md R121, R124,
R125). The opcode values are the spec's own decision D2 (log 3). -/
def Obligations.TransfersMoveAByte : Prop :=
  ∀ s : State,
    (∃ t, exec .txa s = .next t ∧ AfterResultA s t s.x ∧ t.pc = s.pc) ∧
    (∃ t, exec .tay s = .next t ∧ AfterResultY s t s.a ∧ t.pc = s.pc) ∧
    (∃ t, exec .tya s = .next t ∧ AfterResultA s t s.y ∧ t.pc = s.pc) ∧
    (Ready s [0x8A] → ∃ t, step s = .next t ∧ AfterResultA s t s.x ∧ PcMoved s t 1 1) ∧
    (Ready s [0xA8] → ∃ t, step s = .next t ∧ AfterResultY s t s.a ∧ PcMoved s t 1 1) ∧
    (Ready s [0x98] → ∃ t, step s = .next t ∧ AfterResultA s t s.y ∧ PcMoved s t 1 1)

/-- DEX, DEY, INY: plus or minus 1 modulo 256, the flags from the new value, nothing else changed but PC by the fetch
(42_implied.md R122, R126, R127). The opcode values are the spec's own decision D2 (log 3). -/
def Obligations.DecrementsAndInyWrap : Prop :=
  ∀ s : State,
    (∃ t, exec .dex s = .next t ∧ t.x.toNat = (s.x.toNat + 255) % 256 ∧ AfterResultX s t t.x ∧ t.pc = s.pc) ∧
    (∃ t, exec .dey s = .next t ∧ t.y.toNat = (s.y.toNat + 255) % 256 ∧ AfterResultY s t t.y ∧ t.pc = s.pc) ∧
    (∃ t, exec .iny s = .next t ∧ t.y.toNat = (s.y.toNat + 1) % 256 ∧ AfterResultY s t t.y ∧ t.pc = s.pc) ∧
    (Ready s [0xCA] →
      ∃ t, step s = .next t ∧ t.x.toNat = (s.x.toNat + 255) % 256 ∧ AfterResultX s t t.x ∧ PcMoved s t 1 1) ∧
    (Ready s [0x88] →
      ∃ t, step s = .next t ∧ t.y.toNat = (s.y.toNat + 255) % 256 ∧ AfterResultY s t t.y ∧ PcMoved s t 1 1) ∧
    (Ready s [0xC8] →
      ∃ t, step s = .next t ∧ t.y.toNat = (s.y.toNat + 1) % 256 ∧ AfterResultY s t t.y ∧ PcMoved s t 1 1)

/-! ## LDA, STA, ROL, ROR -/

/-- Every form of LDA completes from every state: A is the byte at the effective address, the flags come from it, and
nothing else but PC changes (43_addressed.md R140). In Immediate mode A is the operand byte. -/
def Obligations.LdaFormsComplete : Prop :=
  ∀ s : State,
  (∀ b : Byte, ∃ t, exec (.ldaImm b) s = .next t ∧
    AfterResultA s t b) ∧
  (∀ b : Byte, ∃ t, exec (.ldaZp b) s = .next t ∧
    AfterResultA s t (s.mem.read (eaZeroPage b))) ∧
  (∀ b : Byte, ∃ t, exec (.ldaZpX b) s = .next t ∧
    AfterResultA s t (s.mem.read (eaZeroPageX b s))) ∧
  (∀ w : Addr, ∃ t, exec (.ldaAbs w) s = .next t ∧
    AfterResultA s t (s.mem.read (eaAbsolute w))) ∧
  (∀ w : Addr, ∃ t, exec (.ldaAbsX w) s = .next t ∧
    AfterResultA s t (s.mem.read (eaAbsoluteX w s))) ∧
  (∀ w : Addr, ∃ t, exec (.ldaAbsY w) s = .next t ∧
    AfterResultA s t (s.mem.read (eaAbsoluteY w s))) ∧
  (∀ b : Byte, ∃ t, exec (.ldaIndX b) s = .next t ∧
    AfterResultA s t (s.mem.read (eaIndirectX b s))) ∧
  (∀ b : Byte, ∃ t, exec (.ldaIndY b) s = .next t ∧
    AfterResultA s t (s.mem.read (eaIndirectY b s)))

/-- A step over LDA Immediate: A is the operand byte whatever it is, PC is past both bytes under both values of PC_SEQ
(43_addressed.md R144; the opcode value stands in the source). -/
def Obligations.LdaImmediateStepLoadsItsOperand : Prop :=
  ∀ (s : State) (v : Byte), Ready s [0xA9, v] →
    ∃ t, step s = .next t ∧ AfterResultA s t v ∧ PcMoved s t 2 2

/-- A step over each encoding of LDA (43_addressed.md R144 to R151). The opcode values but 0xA9 and the PC advances are
the spec's own decisions D2 and D1 (logs 3 and 1). -/
def Obligations.LdaStepsLoad : Prop :=
  ∀ s : State,
  (∀ b : Byte, Ready s [0xA9, b] →
    ∃ t, step s = .next t ∧ AfterResultA s t b ∧ PcMoved s t 2 2) ∧
  (∀ b : Byte, Ready s [0xA5, b] →
    ∃ t, step s = .next t ∧ AfterResultA s t (s.mem.read (eaZeroPage b)) ∧ PcMoved s t 2 3) ∧
  (∀ b : Byte, Ready s [0xB5, b] →
    ∃ t, step s = .next t ∧ AfterResultA s t (s.mem.read (eaZeroPageX b s)) ∧ PcMoved s t 2 3) ∧
  (∀ lo hi : Byte, Ready s [0xAD, lo, hi] →
    ∃ t, step s = .next t ∧ AfterResultA s t (s.mem.read (eaAbsolute (wordOf lo hi))) ∧ PcMoved s t 3 4) ∧
  (∀ lo hi : Byte, Ready s [0xBD, lo, hi] →
    ∃ t, step s = .next t ∧ AfterResultA s t (s.mem.read (eaAbsoluteX (wordOf lo hi) s)) ∧ PcMoved s t 3 4) ∧
  (∀ lo hi : Byte, Ready s [0xB9, lo, hi] →
    ∃ t, step s = .next t ∧ AfterResultA s t (s.mem.read (eaAbsoluteY (wordOf lo hi) s)) ∧ PcMoved s t 3 4) ∧
  (∀ b : Byte, Ready s [0xA1, b] →
    ∃ t, step s = .next t ∧ AfterResultA s t (s.mem.read (eaIndirectX b s)) ∧ PcMoved s t 2 3) ∧
  (∀ b : Byte, Ready s [0xB1, b] →
    ∃ t, step s = .next t ∧ AfterResultA s t (s.mem.read (eaIndirectY b s)) ∧ PcMoved s t 2 3)

/-- Every form of STA completes from every state: the byte at the effective address is A, and every other byte and
register but PC is as before; and STA has no Immediate form (43_addressed.md R141). -/
def Obligations.StaFormsComplete : Prop :=
  ∀ s : State,
  (∀ b : Byte, ∃ t, exec (.staZp b) s = .next t ∧
    AfterStore s t (eaZeroPage b)) ∧
  (∀ b : Byte, ∃ t, exec (.staZpX b) s = .next t ∧
    AfterStore s t (eaZeroPageX b s)) ∧
  (∀ w : Addr, ∃ t, exec (.staAbs w) s = .next t ∧
    AfterStore s t (eaAbsolute w)) ∧
  (∀ w : Addr, ∃ t, exec (.staAbsX w) s = .next t ∧
    AfterStore s t (eaAbsoluteX w s)) ∧
  (∀ w : Addr, ∃ t, exec (.staAbsY w) s = .next t ∧
    AfterStore s t (eaAbsoluteY w s)) ∧
  (∀ b : Byte, ∃ t, exec (.staIndX b) s = .next t ∧
    AfterStore s t (eaIndirectX b s)) ∧
  (∀ b : Byte, ∃ t, exec (.staIndY b) s = .next t ∧
    AfterStore s t (eaIndirectY b s)) ∧
  (∀ o : Operand, RawInstr.toInstr ⟨.addressed .sta, .immediate, o⟩ = none)

/-- A step over each encoding of STA (43_addressed.md R152 to R158). The opcode values and the PC advances are the spec's
own decisions D2 and D1 (logs 3 and 1). -/
def Obligations.StaStepsStore : Prop :=
  ∀ s : State,
  (∀ b : Byte, Ready s [0x85, b] →
    ∃ t, step s = .next t ∧ AfterStore s t (eaZeroPage b) ∧ PcMoved s t 2 3) ∧
  (∀ b : Byte, Ready s [0x95, b] →
    ∃ t, step s = .next t ∧ AfterStore s t (eaZeroPageX b s) ∧ PcMoved s t 2 3) ∧
  (∀ lo hi : Byte, Ready s [0x8D, lo, hi] →
    ∃ t, step s = .next t ∧ AfterStore s t (eaAbsolute (wordOf lo hi)) ∧ PcMoved s t 3 4) ∧
  (∀ lo hi : Byte, Ready s [0x9D, lo, hi] →
    ∃ t, step s = .next t ∧ AfterStore s t (eaAbsoluteX (wordOf lo hi) s) ∧ PcMoved s t 3 4) ∧
  (∀ lo hi : Byte, Ready s [0x99, lo, hi] →
    ∃ t, step s = .next t ∧ AfterStore s t (eaAbsoluteY (wordOf lo hi) s) ∧ PcMoved s t 3 4) ∧
  (∀ b : Byte, Ready s [0x81, b] →
    ∃ t, step s = .next t ∧ AfterStore s t (eaIndirectX b s) ∧ PcMoved s t 2 3) ∧
  (∀ b : Byte, Ready s [0x91, b] →
    ∃ t, step s = .next t ∧ AfterStore s t (eaIndirectY b s) ∧ PcMoved s t 2 3)

/-- Every form of ROL completes from every state: A is the memory byte shifted left, and memory is not written
(43_addressed.md R142). That the flags are written, the lost bit dropped and memory kept are the spec's own decisions D5
and D6 (log 8). -/
def Obligations.RolFormsComplete : Prop :=
  ∀ s : State,
  (∀ b : Byte, ∃ t, exec (.rolZp b) s = .next t ∧
    AfterRol s t (s.mem.read (eaZeroPage b))) ∧
  (∀ b : Byte, ∃ t, exec (.rolZpX b) s = .next t ∧
    AfterRol s t (s.mem.read (eaZeroPageX b s))) ∧
  (∀ w : Addr, ∃ t, exec (.rolAbs w) s = .next t ∧
    AfterRol s t (s.mem.read (eaAbsolute w))) ∧
  (∀ w : Addr, ∃ t, exec (.rolAbsX w) s = .next t ∧
    AfterRol s t (s.mem.read (eaAbsoluteX w s)))

/-- A step over each encoding of ROL (43_addressed.md R159 to R162). The opcode values, the PC advances and the flags are
the spec's own decisions D2, D1, D5 and D6 (logs 3, 1 and 8). -/
def Obligations.RolStepsShiftLeft : Prop :=
  ∀ s : State,
  (∀ b : Byte, Ready s [0x26, b] →
    ∃ t, step s = .next t ∧ AfterRol s t (s.mem.read (eaZeroPage b)) ∧ PcMoved s t 2 3) ∧
  (∀ b : Byte, Ready s [0x36, b] →
    ∃ t, step s = .next t ∧ AfterRol s t (s.mem.read (eaZeroPageX b s)) ∧ PcMoved s t 2 3) ∧
  (∀ lo hi : Byte, Ready s [0x2E, lo, hi] →
    ∃ t, step s = .next t ∧ AfterRol s t (s.mem.read (eaAbsolute (wordOf lo hi))) ∧ PcMoved s t 3 4) ∧
  (∀ lo hi : Byte, Ready s [0x3E, lo, hi] →
    ∃ t, step s = .next t ∧ AfterRol s t (s.mem.read (eaAbsoluteX (wordOf lo hi) s)) ∧ PcMoved s t 3 4)

/-- Every form of ROR completes from every state: A is the memory byte shifted right, and memory is not written
(43_addressed.md R143). That the flags are written, the lost bit dropped and memory kept are the spec's own decisions D5
and D6 (log 8). -/
def Obligations.RorFormsComplete : Prop :=
  ∀ s : State,
  (∀ b : Byte, ∃ t, exec (.rorZp b) s = .next t ∧
    AfterRor s t (s.mem.read (eaZeroPage b))) ∧
  (∀ b : Byte, ∃ t, exec (.rorZpX b) s = .next t ∧
    AfterRor s t (s.mem.read (eaZeroPageX b s))) ∧
  (∀ w : Addr, ∃ t, exec (.rorAbs w) s = .next t ∧
    AfterRor s t (s.mem.read (eaAbsolute w))) ∧
  (∀ w : Addr, ∃ t, exec (.rorAbsX w) s = .next t ∧
    AfterRor s t (s.mem.read (eaAbsoluteX w s)))

/-- A step over each encoding of ROR (43_addressed.md R163 to R166). The opcode values, the PC advances and the flags are
the spec's own decisions D2, D1, D5 and D6 (logs 3, 1 and 8). -/
def Obligations.RorStepsShiftRight : Prop :=
  ∀ s : State,
  (∀ b : Byte, Ready s [0x66, b] →
    ∃ t, step s = .next t ∧ AfterRor s t (s.mem.read (eaZeroPage b)) ∧ PcMoved s t 2 3) ∧
  (∀ b : Byte, Ready s [0x76, b] →
    ∃ t, step s = .next t ∧ AfterRor s t (s.mem.read (eaZeroPageX b s)) ∧ PcMoved s t 2 3) ∧
  (∀ lo hi : Byte, Ready s [0x6E, lo, hi] →
    ∃ t, step s = .next t ∧ AfterRor s t (s.mem.read (eaAbsolute (wordOf lo hi))) ∧ PcMoved s t 3 4) ∧
  (∀ lo hi : Byte, Ready s [0x7E, lo, hi] →
    ∃ t, step s = .next t ∧ AfterRor s t (s.mem.read (eaAbsoluteX (wordOf lo hi) s)) ∧ PcMoved s t 3 4)

/-! ## The resolver -/

/-- What the resolver changes: every mode but NoneAddressing answers an effective address and a state that differs in PC
alone, which is past the operand bytes of the mode's format; for Immediate the address is the operand byte's own
(40_addressing_modes.md R80, R81, R82, R93). That Immediate consumes a byte under HARDWARE and none under SOURCE_COMPAT is
the spec's own decision D1 (log 1). -/
def Obligations.ResolverMovesOnlyPc : Prop :=
  ∀ (s : State) (m : Mode),
    (m ≠ .noneAddressing → ∃ ea t, resolve m s = some (ea, t) ∧ (m = .immediate → ea = s.pc) ∧
      PcMoved s t (m.format.length - 1) (if m = .immediate then 0 else m.format.length - 1) ∧ SameButPc s t) ∧
    (m = .noneAddressing → resolve m s = none)

/-- ZeroPage and Absolute: the effective address from the bytes at PC, PC past them, nothing else changed
(40_addressing_modes.md R83, R86). -/
def Obligations.DirectModesResolve : Prop :=
  ∀ s : State,
    (∃ ea t, resolve .zeroPage s = some (ea, t) ∧ ea.toNat = (s.mem.read s.pc).toNat ∧ PcMoved s t 1 1 ∧
      SameButPc s t) ∧
    (∃ ea t, resolve .absolute s = some (ea, t) ∧
      ea.toNat = (s.mem.read s.pc).toNat + 256 * (s.mem.read (s.pc + 1)).toNat ∧ PcMoved s t 2 2 ∧ SameButPc s t)

/-- The indexed modes: the zero-page sums wrap at 256, the absolute ones at 65,536 (40_addressing_modes.md R84, R85,
R87, R88). -/
def Obligations.IndexedModesResolve : Prop :=
  ∀ s : State,
    (∃ ea t, resolve .zeroPageX s = some (ea, t) ∧ ea.toNat = ((s.mem.read s.pc).toNat + s.x.toNat) % 256 ∧
      PcMoved s t 1 1 ∧ SameButPc s t) ∧
    (∃ ea t, resolve .zeroPageY s = some (ea, t) ∧ ea.toNat = ((s.mem.read s.pc).toNat + s.y.toNat) % 256 ∧
      PcMoved s t 1 1 ∧ SameButPc s t) ∧
    (∃ ea t, resolve .absoluteX s = some (ea, t) ∧
      ea.toNat = ((s.mem.read s.pc).toNat + 256 * (s.mem.read (s.pc + 1)).toNat + s.x.toNat) % 65536 ∧
      PcMoved s t 2 2 ∧ SameButPc s t) ∧
    (∃ ea t, resolve .absoluteY s = some (ea, t) ∧
      ea.toNat = ((s.mem.read s.pc).toNat + 256 * (s.mem.read (s.pc + 1)).toNat + s.y.toNat) % 65536 ∧
      PcMoved s t 2 2 ∧ SameButPc s t)

/-- The indirect modes: the pointer is read from the zero page with its high byte at the next zero-page address modulo
256, before or after the index (40_addressing_modes.md R89, R90). The addresses of the pointer's bytes are given as
numbers. -/
def Obligations.IndirectModesResolve : Prop :=
  ∀ (s : State) (lo hi : Addr),
    (lo.toNat = ((s.mem.read s.pc).toNat + s.x.toNat) % 256 →
      hi.toNat = ((s.mem.read s.pc).toNat + s.x.toNat + 1) % 256 →
      ∃ ea t, resolve .indirectX s = some (ea, t) ∧
        ea.toNat = (s.mem.read lo).toNat + 256 * (s.mem.read hi).toNat ∧ PcMoved s t 1 1 ∧ SameButPc s t) ∧
    (lo.toNat = (s.mem.read s.pc).toNat →
      hi.toNat = ((s.mem.read s.pc).toNat + 1) % 256 →
      ∃ ea t, resolve .indirectY s = some (ea, t) ∧
        ea.toNat = ((s.mem.read lo).toNat + 256 * (s.mem.read hi).toNat + s.y.toNat) % 65536 ∧
        PcMoved s t 1 1 ∧ SameButPc s t)

/-! ## Memory and flags -/

/-- The zero-page word read: the high byte comes from the next zero-page address modulo 256, never from 0x0100
(20_memory.md R45). -/
def Obligations.ZeroPagePointerWraps : Prop :=
  ∀ (m : Memory) (p : Byte) (lo hi : Addr), lo.toNat = p.toNat → hi.toNat = (p.toNat + 1) % 256 →
    (m.zpRead16 p).toNat = (m.read lo).toNat + 256 * (m.read hi).toNat

/-- The word accessors: little-endian, wrapping at 0xFFFF; a word written reads back, and no other byte changes
(20_memory.md R43, R44). -/
def Obligations.WordAccessorsRoundTrip : Prop :=
  ∀ (m : Memory) (k w hi : Addr), hi.toNat = (k.toNat + 1) % 65536 →
    (m.readWord k).toNat = (m.read k).toNat + 256 * (m.read hi).toNat ∧
    ((m.writeWord k w).read k).toNat = w.toNat % 256 ∧
    ((m.writeWord k w).read hi).toNat = w.toNat / 256 ∧
    (m.writeWord k w).readWord k = w ∧
    ∀ j : Addr, j ≠ k → j ≠ hi → (m.writeWord k w).read j = m.read j

/-- Two memories in canonical form that read alike are equal data (the form is the model's, log 2). -/
def Obligations.CanonicalMemoriesAreTheirReads : Prop :=
  ∀ m n : Memory, m.wf → n.wf → (∀ k : Addr, m.read k = n.read k) → m = n

/-- Every MEM_INIT is a memory of the model in canonical form (20_memory.md R59, 00_scope.md R5). That
MEM_INIT is free is the spec's own decision D10; the memory's form is the model's (log 2). -/
def Obligations.EveryInitialImageIsAMemory : Prop :=
  ∀ f : Addr → Byte, ∃ m : Memory, m.wf ∧ ∀ k : Addr, m.read k = f k

/-- SetZN (10_state.md R31): both flags from one byte, the mask 0x7D kept; and Z and N are never both set after it. -/
def Obligations.SetZnWritesBothFlags : Prop :=
  ∀ p r : Byte, FlagsOf p (withZN p r) r ∧ withZN p r &&& 0x7D = p &&& 0x7D ∧
    ¬ ((withZN p r).getLsbD 1 = true ∧ (withZN p r).getLsbD 7 = true)

/-- P reaches nothing but P, and no flag is read: two states that differ at most in P step to states that differ at most
in P, and there either both keep their P, or Z and N are the same in both, so that they come from elsewhere, and the
reserved bits are each state's own (10_state.md R28, R29, R31). -/
def Obligations.NoStepReadsTheFlags : Prop :=
  ∀ s s' t : State, SameButP s s' → step s = .next t →
    ∃ t', step s' = .next t' ∧ SameButP t t' ∧
      ((t.p = s.p ∧ t'.p = s'.p) ∨
        (t.p.getLsbD 1 = t'.p.getLsbD 1 ∧ t.p.getLsbD 7 = t'.p.getLsbD 7 ∧
          ∀ i, i ≠ 1 → i ≠ 7 → t.p.getLsbD i = s.p.getLsbD i ∧ t'.p.getLsbD i = s'.p.getLsbD i))

/-- What a step writes: at most one of A, X and Y; memory only by STA, whose seven opcodes are listed; never the
reserved bits of P or the configuration (41_execution_step.md R101, 10_state.md R24, R30). -/
def Obligations.StepWritesAtMostOneRegister : Prop :=
  ∀ s t : State, step s = .next t →
    ((t.x = s.x ∧ t.y = s.y) ∨ (t.a = s.a ∧ t.y = s.y) ∨ (t.a = s.a ∧ t.x = s.x)) ∧
    (s.mem.read s.pc ∉ ([0x85, 0x95, 0x8D, 0x9D, 0x99, 0x81, 0x91] : List Byte) → SameMemory s t) ∧
    t.pcSeq = s.pcSeq ∧ t.p &&& 0x7D = s.p &&& 0x7D

/-! ## The invariant -/

/-- Every step keeps the invariant: the memory's canonical form, the reserved bits of P at 0, Z and N not both set, a
fault record that tells the truth (10_state.md R30, R31, R36, 60_exceptions.md R206; the memory's form is the
model's, log 2). -/
def Obligations.StepKeepsTheInvariant : Prop :=
  ∀ s t : State, s.Inv → step s = .next t → t.Inv

/-- The state after reset meets the invariant (its memory lists no byte, log 2). -/
def Obligations.ResetMeetsTheInvariant : Prop :=
  State.reset.Inv

/-! ## The host's operations and runs -/

/-- reset: A, X, Y and P zeroed, PC the little-endian word at 0xFFFC, Running, memory unchanged, from every run state
(70_reset_and_hazards.md R231). The run state after reset is the spec's own decision D18 (log 14). -/
def Obligations.ResetZeroesRegistersAndReloadsPc : Prop :=
  ∀ s : State,
    s.hostReset.a = 0 ∧ s.hostReset.x = 0 ∧ s.hostReset.y = 0 ∧ s.hostReset.p = 0 ∧
    s.hostReset.pc.toNat = (s.mem.read 0xFFFC).toNat + 256 * (s.mem.read 0xFFFD).toNat ∧
    s.hostReset.run = .running ∧ s.hostReset.pcSeq = s.pcSeq ∧ SameMemory s s.hostReset

/-- load: the image at 0x8000 and up, then 0x8000 as the reset vector, which replaces image bytes it meets; no other
byte, no register and not the run state change (70_reset_and_hazards.md R232). The order of the copy and the
vector is the spec's own decision D13 (log 15). -/
def Obligations.LoadPlacesImageAndVector : Prop :=
  ∀ (s : State) (img : List Byte), img.length ≤ 0x7FFF →
    ∃ t, s.hostLoad img = .next t ∧
      t.mem.read 0xFFFC = 0x00 ∧ t.mem.read 0xFFFD = 0x80 ∧
      (∀ (i : Nat) (h : i < img.length), i ≠ 0x7FFC → i ≠ 0x7FFD →
        t.mem.read (BitVec.ofNat 16 (0x8000 + i)) = img[i]) ∧
      (∀ k : Addr, k ≠ 0xFFFC → k ≠ 0xFFFD → (k.toNat < 0x8000 ∨ 0x8000 + img.length ≤ k.toNat) →
        t.mem.read k = s.mem.read k) ∧
      t.a = s.a ∧ t.x = s.x ∧ t.y = s.y ∧ t.p = s.p ∧ t.pc = s.pc ∧ t.run = s.run ∧ t.pcSeq = s.pcSeq

/-- An image longer than 0x7FFF bytes is refused, and no shorter one is, the empty one included
(70_reset_and_hazards.md R233). The refusal is the spec's own decision D13 (log 15). -/
def Obligations.OversizedImageRefused : Prop :=
  ∀ (s : State) (img : List Byte),
    (0x7FFF < img.length → s.hostLoad img = .refused (.imageTooLong img.length)) ∧
    (img.length ≤ 0x7FFF → ∃ t, s.hostLoad img = .next t) ∧
    (∃ t, s.hostLoad [] = .next t ∧ t.mem.read 0xFFFC = 0x00 ∧ t.mem.read 0xFFFD = 0x80 ∧
      ∀ k : Addr, k ≠ 0xFFFC → k ≠ 0xFFFD → t.mem.read k = s.mem.read k)

/-- After a load and a reset the first opcode is fetched at 0x8000; after a reset without a load, at the word at 0xFFFC
of whatever memory holds (70_reset_and_hazards.md R239). -/
def Obligations.LoadThenResetStartsAt8000 : Prop :=
  ∀ (s t : State) (img : List Byte),
    (s.hostLoad img = .next t → t.hostReset.pc = 0x8000) ∧
    s.hostReset.pc.toNat = (s.mem.read 0xFFFC).toNat + 256 * (s.mem.read 0xFFFD).toNat

/-- What each host transaction may change: a register write that register alone, to any value of its width
(70_reset_and_hazards.md R236); a reset no byte of memory; a load no register and not the run state; a step is answered
only in Running; and no transaction changes the configuration. The register write is the spec's own decision D12 (log 16),
the configuration in the state the model's (log 1). -/
def Obligations.HostTransactionsFrame : Prop :=
  ∀ (o : HostOp) (s t : State), transact o s = .next t →
    t.pcSeq = s.pcSeq ∧
    match o with
    | .setReg (.a v) => t = { s with a := v }
    | .setReg (.x v) => t = { s with x := v }
    | .setReg (.y v) => t = { s with y := v }
    | .setReg (.p v) => t = { s with p := v }
    | .setReg (.pc k) => t = { s with pc := k }
    | .reset => SameMemory s t ∧ t.run = .running
    | .load _ => t.a = s.a ∧ t.x = s.x ∧ t.y = s.y ∧ t.p = s.p ∧ t.pc = s.pc ∧ t.run = s.run
    | .step => s.run = .running

/-- `run` under a step budget: after the load and the reset it steps until the run state is not Running; it answers a
state that steps reach, and only a spent budget ends it in Running. It follows from 41_execution_step.md R110 and
70_reset_and_hazards.md R234, R243; the budget as an argument and the answer when it is spent are the model's choice
(DESIGN CHOICE, log 18), and that runs may be infinite is the spec's own decision D22. -/
def Obligations.RunStepsUntilNotRunning : Prop :=
  ∀ (s u : State) (img : List Byte) (budget : Nat), s.hostLoad img = .next u →
    ∃ t, runImage budget img s = .next t ∧ RunsTo u.hostReset t ∧
      (t.run = .running → Sys2Proof.core.run budget u.hostReset = .next t)

/-- A run need not end (41_execution_step.md R113): over memory whose every byte is 0xE8, INX, every step from every
Running state answers a Running state over the same memory; so no run from such a state ends; and there is such a
state that meets the invariant. That runs may be infinite is the spec's own decision D22 (log 18). -/
def Obligations.RunNeedNotEnd : Prop :=
  (∀ s : State, s.run = .running → (∀ k : Addr, s.mem.read k = 0xE8) →
    (∃ t, step s = .next t ∧ t.run = .running ∧ SameMemory s t) ∧ NeverEnds s) ∧
  ∃ s : State, s.Inv ∧ s.run = .running ∧ (∀ k : Addr, s.mem.read k = 0xE8) ∧ NeverEnds s

/-- An opcode-table word placed by the model's own `withFetchWord` is what the next step runs (log 14). -/
def Obligations.PlacedWordIsRun : Prop :=
  ∀ (s : State) (nbits w : Nat) (i : Instr), decodeTableWord nbits w = some i →
    step (s.withFetchWord nbits w) =
      exec i { s.withFetchWord nbits w with pc := s.pc + 1 }
end

