-- ==== Sys2Proof/Laws/Bits.lean ====
section
/-! SUPPORT. Bytes, words and flags as numbers and bits. -/

namespace Sys2Proof.Machine

theorem zext16_toNat (b : Byte) : (zext16 b).toNat = b.toNat := by
  simp [zext16]; omega

theorem wordOf_toNat (lo hi : Byte) : (wordOf lo hi).toNat = lo.toNat + 256 * hi.toNat := by
  have hlo := lo.isLt
  have hhi := hi.isLt
  have hshift : (zext16 hi <<< 8).toNat = hi.toNat <<< 8 := by
    rw [BitVec.toNat_shiftLeft, zext16_toNat, Nat.mod_eq_of_lt]
    rw [Nat.shiftLeft_eq]; omega
  rw [wordOf, BitVec.toNat_or, hshift, zext16_toNat, ← Nat.shiftLeft_add_eq_or_of_lt hlo, Nat.shiftLeft_eq]
  omega

theorem lowByte_toNat (w : Addr) : (lowByte w).toNat = w.toNat % 256 := by
  simp [lowByte]

theorem highByte_toNat (w : Addr) : (highByte w).toNat = w.toNat / 256 := by
  simp [highByte, Nat.shiftRight_eq_div_pow]; omega

/-- The byte order loses no bit (R44). -/
@[simp] theorem wordOf_low_high (w : Addr) : wordOf (lowByte w) (highByte w) = w := by
  apply BitVec.eq_of_toNat_eq
  rw [wordOf_toNat, lowByte_toNat, highByte_toNat]; omega

@[simp] theorem lowByte_wordOf (lo hi : Byte) : lowByte (wordOf lo hi) = lo := by
  apply BitVec.eq_of_toNat_eq
  rw [lowByte_toNat, wordOf_toNat]; omega

@[simp] theorem highByte_wordOf (lo hi : Byte) : highByte (wordOf lo hi) = hi := by
  apply BitVec.eq_of_toNat_eq
  rw [highByte_toNat, wordOf_toNat]; omega

/-- Z after SetZN (R28, R31). -/
@[simp] theorem zFlag_withZN (p r : Byte) : zFlag (withZN p r) = (r == 0) := by
  by_cases h : r = 0#8 <;> cases h7 : r.getLsbD 7 <;> simp_all [zFlag, withZN, reservedMask, flagBit]

/-- N after SetZN (R29, R31). -/
@[simp] theorem nFlag_withZN (p r : Byte) : nFlag (withZN p r) = r.getLsbD 7 := by
  by_cases h : r = 0#8 <;> cases h7 : r.getLsbD 7 <;> simp_all [nFlag, withZN, reservedMask, flagBit]

/-- The reserved bits after SetZN (R30). -/
@[simp] theorem withZN_reserved (p r : Byte) : withZN p r &&& reservedMask = p &&& reservedMask := by
  unfold withZN
  ext i hi
  rcases (by omega : i = 0 ∨ i = 1 ∨ i = 2 ∨ i = 3 ∨ i = 4 ∨ i = 5 ∨ i = 6 ∨ i = 7) with
    rfl | rfl | rfl | rfl | rfl | rfl | rfl | rfl <;>
  by_cases h : r = 0#8 <;> cases h7 : r[7] <;> simp_all [reservedMask, flagBit, BitVec.getLsbD_eq_getElem]

/-- A reserved bit after SetZN is the old one (R30). -/
theorem withZN_bit (p r : Byte) (i : Nat) (h1 : i ≠ 1) (h7 : i ≠ 7) : (withZN p r).getLsbD i = p.getLsbD i := by
  by_cases hi : i < 8
  · have := congrArg (fun v : Byte => v.getLsbD i) (withZN_reserved p r)
    rcases (by omega : i = 0 ∨ i = 2 ∨ i = 3 ∨ i = 4 ∨ i = 5 ∨ i = 6) with
      rfl | rfl | rfl | rfl | rfl | rfl <;> simpa [reservedMask] using this
  · simp [BitVec.getLsbD_of_ge _ _ (by omega : 8 ≤ i)]

/-- Z and N after SetZN are not both set: no byte is 0 with bit 7 set (R31). -/
theorem withZN_not_both (p r : Byte) : ¬ (zFlag (withZN p r) = true ∧ nFlag (withZN p r) = true) := by
  simp only [zFlag_withZN, nFlag_withZN, beq_iff_eq]
  rintro ⟨rfl, h⟩
  simp at h

end Sys2Proof.Machine
end

