-- ==== Sys2Proof/Laws/Decode.lean ====
section
/-! SUPPORT. The decoder's parts on the encoder's output. -/

namespace Sys2Proof

open Sys2Proof.Machine

/-- The opcode map gives each instruction's opcode its handler and mode. -/
theorem decodeOpcode_opcode (i : Instr) : decodeOpcode i.opcode = some (i.raw.handler, i.raw.mode) := by
  cases i <;> rfl

/-- A raw instruction made from an instruction gives it back. -/
theorem toInstr_raw (i : Instr) : i.raw.toInstr = some i := by
  cases i <;> rfl

/-- No instruction of the table has an addressing-mode handler with NoneAddressing (R70). -/
theorem lacksOperandMode_raw (i : Instr) : lacksOperandMode i.raw.handler i.raw.mode = false := by
  cases i <;> rfl

/-- Every row of the opcode map has an operand mode where its handler needs one (R70). -/
theorem decodeOpcode_hasOperandMode {op : Byte} {h : Handler} {m : Mode} (e : decodeOpcode op = some (h, m)) :
    lacksOperandMode h m = false := by
  have all : ∀ op : Byte, (decodeOpcode op).all (fun d => !lacksOperandMode d.1 d.2) = true := by decide
  simpa [e] using all op

/-- The well-formed raw instructions are those with an instruction (R66, R71), one handler at a time. -/
theorem toInstr_isSome (r : RawInstr) : r.toInstr.isSome = r.wellFormed := by
  obtain ⟨h, m, o⟩ := r
  rcases h with _ | op | op
  · cases m <;> cases o <;> rfl
  · cases m <;> cases o <;> rfl
  · cases op <;> cases m <;> cases o <;> rfl

/-- Every row of the opcode map pairs a handler with a mode it takes (R66, R73). -/
theorem decodeOpcode_allowsMode {op : Byte} {h : Handler} {m : Mode} (e : decodeOpcode op = some (h, m)) :
    h.allowsMode m = true := by
  have all : ∀ op : Byte, (decodeOpcode op).all (fun d => d.1.allowsMode d.2) = true := by decide
  simpa [e] using all op

/-- The operand taken for a format fits it. -/
theorem takeOperand_fits {f : Format} {bytes rest : List Byte} {o : Operand} (h : takeOperand f bytes = some (o, rest)) :
    o.fits f = true := by
  unfold takeOperand at h
  split at h <;> simp at h
  · simp [← h.1, Operand.fits]
  · simp [← h.1, Operand.fits]
  · simp [← h.1, Operand.fits]

/-- Two bytes are enough for every operand. -/
theorem takeOperand_two (f : Format) (b c : Byte) : (takeOperand f [b, c]).isSome = true := by
  cases f <;> rfl

/-- The operand of an instruction's encoding is taken back, whatever follows. -/
theorem takeOperand_bytes (i : Instr) (rest : List Byte) :
    takeOperand i.raw.mode.format (i.raw.operand.bytes ++ rest) = some (i.raw.operand, rest) := by
  cases i <;> simp [Instr.raw, Mode.format, Operand.bytes, takeOperand]

/-- Decoding after an opcode with a row. -/
theorem decode_cons {op : Byte} {h : Handler} {m : Mode} (bytes : List Byte) (e : decodeOpcode op = some (h, m)) :
    decode (op :: bytes) = decodeDescriptor op h m bytes := by
  simp [decode, e]

/-- Decoding after an opcode with a row: the operand bytes run out, or the row's instruction is read (R60, R67). -/
theorem decode_of_row {op : Byte} {h : Handler} {m : Mode} (bytes : List Byte) (e : decodeOpcode op = some (h, m)) :
    (takeOperand m.format bytes = none ∧ decode (op :: bytes) = .reject .truncated) ∨
    ∃ o rest i, takeOperand m.format bytes = some (o, rest) ∧ RawInstr.toInstr ⟨h, m, o⟩ = some i ∧
      decode (op :: bytes) = .instr i rest := by
  rw [decode_cons bytes e, decodeDescriptor, decodeOpcode_hasOperandMode e]
  cases ht : takeOperand m.format bytes with
  | none => exact .inl (by simp)
  | some d =>
    obtain ⟨o, rest⟩ := d
    have wf : RawInstr.wellFormed ⟨h, m, o⟩ = true := by
      simp [RawInstr.wellFormed, decodeOpcode_allowsMode e, takeOperand_fits ht]
    obtain ⟨i, hi⟩ := Option.isSome_iff_exists.1 ((toInstr_isSome ⟨h, m, o⟩).trans wf)
    exact .inr ⟨o, rest, i, rfl, hi, by simp [hi]⟩

/-- Decoding after an opcode without a row (R68). -/
theorem decode_cons_none {op : Byte} (bytes : List Byte) (e : decodeOpcode op = none) :
    decode (op :: bytes) = .reject (.unimplementedOpcode op) := by
  simp [decode, e]

end Sys2Proof
end

