-- ==== Sys2Proof/Laws/Memory.lean ====
section
/-! SUPPORT. What the memory's operations do: a read after a write, and that every operation keeps the canonical
form. -/

namespace Sys2Proof.Machine.Memory

theorem lookup_cons (j : Nat) (b : Byte) (m : Memory) (k : Nat) :
    lookup ((j, b) :: m) k = if j < k then lookup m k else if j = k then b else unlisted k := rfl

theorem lookup_dropWhile_gt (m : Memory) (k j : Nat) (h : k < j) :
    lookup (m.dropWhile (fun c => decide (c.1 ≤ k))) j = lookup m j := by
  induction m with
  | nil => rfl
  | cons c m ih =>
    obtain ⟨i, b⟩ := c
    by_cases hi : i ≤ k
    · simp [hi, lookup_cons, show i < j by omega, ih]
    · simp [hi]

theorem lookup_dropWhile_le (m : Memory) (k j : Nat) (h : j ≤ k) :
    lookup (m.dropWhile (fun c => decide (c.1 ≤ k))) j = unlisted j := by
  induction m with
  | nil => rfl
  | cons c m ih =>
    obtain ⟨i, b⟩ := c
    by_cases hi : i ≤ k
    · simpa [List.dropWhile_cons, hi] using ih
    · simp [hi, lookup_cons, show ¬ i < j by omega, show ¬ i = j by omega]

theorem lookup_cell_append (m : Memory) (k : Nat) (v : Byte) (j : Nat) (hm : j ≤ k → lookup m j = unlisted j) :
    lookup (cell k v ++ m) j = if j = k then v else lookup m j := by
  unfold cell
  split
  · next hv =>
    split
    · next hj => subst hj; simpa [hv] using hm (le_refl j)
    · rfl
  · rw [List.singleton_append, lookup_cons]
    by_cases h1 : k < j
    · simp [h1, show ¬ j = k by omega]
    · by_cases h2 : j = k
      · simp [h2]
      · simp [h1, h2, Ne.symm h2, hm (by omega)]

/-- What `put` does to every lookup, in any list. -/
theorem lookup_put (m : Memory) (k : Nat) (v : Byte) (j : Nat) :
    lookup (put m k v) j = if j = k then v else lookup m j := by
  induction m with
  | nil => simpa [put] using lookup_cell_append [] k v j (fun _ => rfl)
  | cons c m ih =>
    obtain ⟨i, b⟩ := c
    unfold put
    by_cases hi : i < k
    · rw [if_pos hi, lookup_cons, ih, lookup_cons]
      by_cases hj : j = k
      · simp [hj, hi]
      · simp [hj]
    · rw [if_neg hi, lookup_cell_append _ _ _ _ (fun h => lookup_dropWhile_le _ _ _ h)]
      by_cases hj : j = k
      · simp [hj]
      · rw [if_neg hj, if_neg hj]
        by_cases hgt : k < j
        · exact lookup_dropWhile_gt _ _ _ hgt
        · rw [lookup_dropWhile_le _ _ _ (by omega), lookup_cons, if_neg (by omega), if_neg (by omega)]

/-- What a write does to every read. -/
theorem read_write (m : Memory) (a : Addr) (v : Byte) (b : Addr) :
    (m.write a v).read b = if b = a then v else m.read b := by
  simp only [read, write, lookup_put, BitVec.toNat_inj]

@[simp] theorem read_write_same (m : Memory) (a : Addr) (v : Byte) : (m.write a v).read a = v := by
  simp [read_write]

theorem read_write_other (m : Memory) (a : Addr) (v : Byte) (b : Addr) (h : b ≠ a) :
    (m.write a v).read b = m.read b := by
  simp [read_write, h]

theorem wf_nil : wf [] := by simp [wf]

theorem wf_tail {c : Host.Cell} {m : Memory} (h : wf (c :: m)) : wf m :=
  ⟨(List.pairwise_cons.1 h.1).2, fun d hd => h.2 d (List.mem_cons_of_mem _ hd)⟩

theorem mem_dropWhile {m : Memory} {k : Nat} {c : Host.Cell}
    (h : c ∈ m.dropWhile (fun c => decide (c.1 ≤ k))) : c ∈ m :=
  (List.dropWhile_sublist _).mem h

theorem lt_of_mem_dropWhile {m : Memory} {k : Nat} {c : Host.Cell} (hm : m.Pairwise (fun c d => c.1 < d.1))
    (h : c ∈ m.dropWhile (fun c => decide (c.1 ≤ k))) : k < c.1 := by
  induction m with
  | nil => simp at h
  | cons d m ih =>
    by_cases hd : d.1 ≤ k
    · exact ih (List.pairwise_cons.1 hm).2 (by simpa [List.dropWhile_cons, hd] using h)
    · rw [List.dropWhile_cons, if_neg (by simpa using hd)] at h
      rcases List.mem_cons.1 h with rfl | h
      · omega
      · have := (List.pairwise_cons.1 hm).1 c h
        omega

theorem mem_cell {k : Nat} {v : Byte} {c : Host.Cell} (h : c ∈ cell k v) : c = (k, v) ∧ v ≠ unlisted k := by
  unfold cell at h
  split at h
  · simp at h
  · exact ⟨by simpa using h, ‹_›⟩

theorem mem_put {m : Memory} {k : Nat} {v : Byte} {c : Host.Cell} (h : c ∈ put m k v) :
    c ∈ m ∨ (c = (k, v) ∧ v ≠ unlisted k) := by
  induction m with
  | nil => exact .inr (mem_cell h)
  | cons d m ih =>
    obtain ⟨i, b⟩ := d
    unfold put at h
    split at h
    · rcases List.mem_cons.1 h with rfl | h
      · exact .inl (by simp)
      · exact (ih h).imp_left (List.mem_cons_of_mem _)
    · rcases List.mem_append.1 h with h | h
      · exact .inr (mem_cell h)
      · exact .inl (mem_dropWhile h)

theorem pairwise_cell_append {m : Memory} (k : Nat) (v : Byte) (hm : m.Pairwise (fun c d => c.1 < d.1))
    (hk : ∀ c ∈ m, k < c.1) : (cell k v ++ m).Pairwise (fun c d => c.1 < d.1) := by
  unfold cell
  split
  · simpa using hm
  · exact List.pairwise_cons.2 ⟨hk, hm⟩

theorem pairwise_put {m : Memory} (k : Nat) (v : Byte) (hm : m.Pairwise (fun c d => c.1 < d.1)) :
    (put m k v).Pairwise (fun c d => c.1 < d.1) := by
  induction m with
  | nil => simpa [put] using pairwise_cell_append k v hm (by simp)
  | cons d m ih =>
    obtain ⟨i, b⟩ := d
    have hd := List.pairwise_cons.1 hm
    unfold put
    split
    · next hi =>
      refine List.pairwise_cons.2 ⟨fun c hc => ?_, ih hd.2⟩
      rcases mem_put hc with hc | ⟨rfl, -⟩
      · exact hd.1 c hc
      · exact hi
    · exact pairwise_cell_append _ _ (hm.sublist (List.dropWhile_sublist _)) (fun c hc => lt_of_mem_dropWhile hm hc)

/-- A write keeps the canonical form. -/
theorem write_wf {m : Memory} (a : Addr) (v : Byte) (h : m.wf) : (m.write a v).wf := by
  refine ⟨pairwise_put _ _ h.1, fun c hc => ?_⟩
  rcases mem_put hc with hc | ⟨rfl, hv⟩
  · exact h.2 c hc
  · exact ⟨by simpa [Config.memorySize] using a.isLt, hv⟩

/-- A word write keeps the canonical form. -/
theorem writeWord_wf {m : Memory} (a w : Addr) (h : m.wf) : (m.writeWord a w).wf :=
  write_wf _ _ (write_wf _ _ h)

/-- Writing bytes one after another keeps the canonical form. -/
theorem writeBytes_wf {m : Memory} (a : Addr) (bytes : List Byte) (h : m.wf) : (m.writeBytes a bytes).wf := by
  induction bytes generalizing m a with
  | nil => exact h
  | cons b bytes ih => exact ih _ (write_wf _ _ h)

/-- A load keeps the canonical form. -/
theorem loadedMemory_wf {m : Memory} (img : List Byte) (h : m.wf) : (loadedMemory m img).wf :=
  writeWord_wf _ _ (writeBytes_wf _ _ h)

/-- Placing an instruction for the next step keeps the canonical form. -/
theorem placeInstr_wf {s : State} (bytes : List Byte) (h : s.mem.wf) : (s.placeInstr bytes).mem.wf :=
  writeBytes_wf _ _ h

/-- The memory of State.reset has the canonical form. -/
theorem reset_wf : State.reset.mem.wf := wf_nil

/-- Bytes written from `a` up leave every address outside them as it was; `n` counts the bytes from `a` to `b`. -/
theorem read_writeBytes_outside (m : Memory) (a : Addr) (bytes : List Byte) (b : Addr)
    (h : ∀ i, i < bytes.length → b ≠ a + BitVec.ofNat 16 i) : (m.writeBytes a bytes).read b = m.read b := by
  induction bytes generalizing m a with
  | nil => rfl
  | cons v bytes ih =>
    rw [writeBytes, ih]
    · exact read_write_other _ _ _ _ (by simpa using h 0 (by simp))
    · intro i hi
      have := h (i + 1) (by simpa using hi)
      rw [show a + 1 + BitVec.ofNat 16 i = a + BitVec.ofNat 16 (i + 1) by
        apply BitVec.eq_of_toNat_eq; simp; omega]
      exact this

end Sys2Proof.Machine.Memory
end

