-- ==== Sys2Proof/Laws/State.lean ====
section
/-! SUPPORT. One lemma per field per update of the state, so that no later proof unfolds a record update. -/

namespace Sys2Proof.Machine.State

@[simp] theorem setA_a (s : State) (v : Byte) : (s.setA v).a = v := rfl
@[simp] theorem setA_x (s : State) (v : Byte) : (s.setA v).x = s.x := rfl
@[simp] theorem setA_y (s : State) (v : Byte) : (s.setA v).y = s.y := rfl
@[simp] theorem setA_p (s : State) (v : Byte) : (s.setA v).p = s.p := rfl
@[simp] theorem setA_pc (s : State) (v : Byte) : (s.setA v).pc = s.pc := rfl
@[simp] theorem setA_mem (s : State) (v : Byte) : (s.setA v).mem = s.mem := rfl
@[simp] theorem setA_run (s : State) (v : Byte) : (s.setA v).run = s.run := rfl
@[simp] theorem setA_pcSeq (s : State) (v : Byte) : (s.setA v).pcSeq = s.pcSeq := rfl
@[simp] theorem setA_readByte (s : State) (v : Byte) (k : Addr) : (s.setA v).readByte k = s.readByte k := rfl

@[simp] theorem setX_a (s : State) (v : Byte) : (s.setX v).a = s.a := rfl
@[simp] theorem setX_x (s : State) (v : Byte) : (s.setX v).x = v := rfl
@[simp] theorem setX_y (s : State) (v : Byte) : (s.setX v).y = s.y := rfl
@[simp] theorem setX_p (s : State) (v : Byte) : (s.setX v).p = s.p := rfl
@[simp] theorem setX_pc (s : State) (v : Byte) : (s.setX v).pc = s.pc := rfl
@[simp] theorem setX_mem (s : State) (v : Byte) : (s.setX v).mem = s.mem := rfl
@[simp] theorem setX_run (s : State) (v : Byte) : (s.setX v).run = s.run := rfl
@[simp] theorem setX_pcSeq (s : State) (v : Byte) : (s.setX v).pcSeq = s.pcSeq := rfl
@[simp] theorem setX_readByte (s : State) (v : Byte) (k : Addr) : (s.setX v).readByte k = s.readByte k := rfl

@[simp] theorem setY_a (s : State) (v : Byte) : (s.setY v).a = s.a := rfl
@[simp] theorem setY_x (s : State) (v : Byte) : (s.setY v).x = s.x := rfl
@[simp] theorem setY_y (s : State) (v : Byte) : (s.setY v).y = v := rfl
@[simp] theorem setY_p (s : State) (v : Byte) : (s.setY v).p = s.p := rfl
@[simp] theorem setY_pc (s : State) (v : Byte) : (s.setY v).pc = s.pc := rfl
@[simp] theorem setY_mem (s : State) (v : Byte) : (s.setY v).mem = s.mem := rfl
@[simp] theorem setY_run (s : State) (v : Byte) : (s.setY v).run = s.run := rfl
@[simp] theorem setY_pcSeq (s : State) (v : Byte) : (s.setY v).pcSeq = s.pcSeq := rfl
@[simp] theorem setY_readByte (s : State) (v : Byte) (k : Addr) : (s.setY v).readByte k = s.readByte k := rfl

@[simp] theorem setP_a (s : State) (v : Byte) : (s.setP v).a = s.a := rfl
@[simp] theorem setP_x (s : State) (v : Byte) : (s.setP v).x = s.x := rfl
@[simp] theorem setP_y (s : State) (v : Byte) : (s.setP v).y = s.y := rfl
@[simp] theorem setP_p (s : State) (v : Byte) : (s.setP v).p = v := rfl
@[simp] theorem setP_pc (s : State) (v : Byte) : (s.setP v).pc = s.pc := rfl
@[simp] theorem setP_mem (s : State) (v : Byte) : (s.setP v).mem = s.mem := rfl
@[simp] theorem setP_run (s : State) (v : Byte) : (s.setP v).run = s.run := rfl
@[simp] theorem setP_pcSeq (s : State) (v : Byte) : (s.setP v).pcSeq = s.pcSeq := rfl
@[simp] theorem setP_readByte (s : State) (v : Byte) (k : Addr) : (s.setP v).readByte k = s.readByte k := rfl

@[simp] theorem setPc_a (s : State) (t : Addr) : (s.setPc t).a = s.a := rfl
@[simp] theorem setPc_x (s : State) (t : Addr) : (s.setPc t).x = s.x := rfl
@[simp] theorem setPc_y (s : State) (t : Addr) : (s.setPc t).y = s.y := rfl
@[simp] theorem setPc_p (s : State) (t : Addr) : (s.setPc t).p = s.p := rfl
@[simp] theorem setPc_pc (s : State) (t : Addr) : (s.setPc t).pc = t := rfl
@[simp] theorem setPc_mem (s : State) (t : Addr) : (s.setPc t).mem = s.mem := rfl
@[simp] theorem setPc_run (s : State) (t : Addr) : (s.setPc t).run = s.run := rfl
@[simp] theorem setPc_pcSeq (s : State) (t : Addr) : (s.setPc t).pcSeq = s.pcSeq := rfl
@[simp] theorem setPc_readByte (s : State) (t : Addr) (k : Addr) : (s.setPc t).readByte k = s.readByte k := rfl

@[simp] theorem setRun_a (s : State) (r : RunState) : (s.setRun r).a = s.a := rfl
@[simp] theorem setRun_x (s : State) (r : RunState) : (s.setRun r).x = s.x := rfl
@[simp] theorem setRun_y (s : State) (r : RunState) : (s.setRun r).y = s.y := rfl
@[simp] theorem setRun_p (s : State) (r : RunState) : (s.setRun r).p = s.p := rfl
@[simp] theorem setRun_pc (s : State) (r : RunState) : (s.setRun r).pc = s.pc := rfl
@[simp] theorem setRun_mem (s : State) (r : RunState) : (s.setRun r).mem = s.mem := rfl
@[simp] theorem setRun_run (s : State) (r : RunState) : (s.setRun r).run = r := rfl
@[simp] theorem setRun_pcSeq (s : State) (r : RunState) : (s.setRun r).pcSeq = s.pcSeq := rfl
@[simp] theorem setRun_readByte (s : State) (r : RunState) (k : Addr) : (s.setRun r).readByte k = s.readByte k := rfl

@[simp] theorem setMem_a (s : State) (m : Memory) : (s.setMem m).a = s.a := rfl
@[simp] theorem setMem_x (s : State) (m : Memory) : (s.setMem m).x = s.x := rfl
@[simp] theorem setMem_y (s : State) (m : Memory) : (s.setMem m).y = s.y := rfl
@[simp] theorem setMem_p (s : State) (m : Memory) : (s.setMem m).p = s.p := rfl
@[simp] theorem setMem_pc (s : State) (m : Memory) : (s.setMem m).pc = s.pc := rfl
@[simp] theorem setMem_mem (s : State) (m : Memory) : (s.setMem m).mem = m := rfl
@[simp] theorem setMem_run (s : State) (m : Memory) : (s.setMem m).run = s.run := rfl
@[simp] theorem setMem_pcSeq (s : State) (m : Memory) : (s.setMem m).pcSeq = s.pcSeq := rfl

@[simp] theorem setZN_a (s : State) (r : Byte) : (s.setZN r).a = s.a := rfl
@[simp] theorem setZN_x (s : State) (r : Byte) : (s.setZN r).x = s.x := rfl
@[simp] theorem setZN_y (s : State) (r : Byte) : (s.setZN r).y = s.y := rfl
@[simp] theorem setZN_p (s : State) (r : Byte) : (s.setZN r).p = withZN s.p r := rfl
@[simp] theorem setZN_pc (s : State) (r : Byte) : (s.setZN r).pc = s.pc := rfl
@[simp] theorem setZN_mem (s : State) (r : Byte) : (s.setZN r).mem = s.mem := rfl
@[simp] theorem setZN_run (s : State) (r : Byte) : (s.setZN r).run = s.run := rfl
@[simp] theorem setZN_pcSeq (s : State) (r : Byte) : (s.setZN r).pcSeq = s.pcSeq := rfl
@[simp] theorem setZN_readByte (s : State) (r : Byte) (k : Addr) : (s.setZN r).readByte k = s.readByte k := rfl

@[simp] theorem resultA_a (s : State) (v : Byte) : (s.resultA v).a = v := rfl
@[simp] theorem resultA_x (s : State) (v : Byte) : (s.resultA v).x = s.x := rfl
@[simp] theorem resultA_y (s : State) (v : Byte) : (s.resultA v).y = s.y := rfl
@[simp] theorem resultA_p (s : State) (v : Byte) : (s.resultA v).p = withZN s.p v := rfl
@[simp] theorem resultA_pc (s : State) (v : Byte) : (s.resultA v).pc = s.pc := rfl
@[simp] theorem resultA_mem (s : State) (v : Byte) : (s.resultA v).mem = s.mem := rfl
@[simp] theorem resultA_run (s : State) (v : Byte) : (s.resultA v).run = s.run := rfl
@[simp] theorem resultA_pcSeq (s : State) (v : Byte) : (s.resultA v).pcSeq = s.pcSeq := rfl
@[simp] theorem resultA_readByte (s : State) (v : Byte) (k : Addr) : (s.resultA v).readByte k = s.readByte k := rfl

@[simp] theorem resultX_a (s : State) (v : Byte) : (s.resultX v).a = s.a := rfl
@[simp] theorem resultX_x (s : State) (v : Byte) : (s.resultX v).x = v := rfl
@[simp] theorem resultX_y (s : State) (v : Byte) : (s.resultX v).y = s.y := rfl
@[simp] theorem resultX_p (s : State) (v : Byte) : (s.resultX v).p = withZN s.p v := rfl
@[simp] theorem resultX_pc (s : State) (v : Byte) : (s.resultX v).pc = s.pc := rfl
@[simp] theorem resultX_mem (s : State) (v : Byte) : (s.resultX v).mem = s.mem := rfl
@[simp] theorem resultX_run (s : State) (v : Byte) : (s.resultX v).run = s.run := rfl
@[simp] theorem resultX_pcSeq (s : State) (v : Byte) : (s.resultX v).pcSeq = s.pcSeq := rfl
@[simp] theorem resultX_readByte (s : State) (v : Byte) (k : Addr) : (s.resultX v).readByte k = s.readByte k := rfl

@[simp] theorem resultY_a (s : State) (v : Byte) : (s.resultY v).a = s.a := rfl
@[simp] theorem resultY_x (s : State) (v : Byte) : (s.resultY v).x = s.x := rfl
@[simp] theorem resultY_y (s : State) (v : Byte) : (s.resultY v).y = v := rfl
@[simp] theorem resultY_p (s : State) (v : Byte) : (s.resultY v).p = withZN s.p v := rfl
@[simp] theorem resultY_pc (s : State) (v : Byte) : (s.resultY v).pc = s.pc := rfl
@[simp] theorem resultY_mem (s : State) (v : Byte) : (s.resultY v).mem = s.mem := rfl
@[simp] theorem resultY_run (s : State) (v : Byte) : (s.resultY v).run = s.run := rfl
@[simp] theorem resultY_pcSeq (s : State) (v : Byte) : (s.resultY v).pcSeq = s.pcSeq := rfl
@[simp] theorem resultY_readByte (s : State) (v : Byte) (k : Addr) : (s.resultY v).readByte k = s.readByte k := rfl

@[simp] theorem writeByte_a (s : State) (k : Addr) (v : Byte) : (s.writeByte k v).a = s.a := rfl
@[simp] theorem writeByte_x (s : State) (k : Addr) (v : Byte) : (s.writeByte k v).x = s.x := rfl
@[simp] theorem writeByte_y (s : State) (k : Addr) (v : Byte) : (s.writeByte k v).y = s.y := rfl
@[simp] theorem writeByte_p (s : State) (k : Addr) (v : Byte) : (s.writeByte k v).p = s.p := rfl
@[simp] theorem writeByte_pc (s : State) (k : Addr) (v : Byte) : (s.writeByte k v).pc = s.pc := rfl
@[simp] theorem writeByte_mem (s : State) (k : Addr) (v : Byte) : (s.writeByte k v).mem = s.mem.write k v := rfl
@[simp] theorem writeByte_run (s : State) (k : Addr) (v : Byte) : (s.writeByte k v).run = s.run := rfl
@[simp] theorem writeByte_pcSeq (s : State) (k : Addr) (v : Byte) : (s.writeByte k v).pcSeq = s.pcSeq := rfl

@[simp] theorem advancePc_a (s : State) (n : Nat) : (s.advancePc n).a = s.a := rfl
@[simp] theorem advancePc_x (s : State) (n : Nat) : (s.advancePc n).x = s.x := rfl
@[simp] theorem advancePc_y (s : State) (n : Nat) : (s.advancePc n).y = s.y := rfl
@[simp] theorem advancePc_p (s : State) (n : Nat) : (s.advancePc n).p = s.p := rfl
@[simp] theorem advancePc_pc (s : State) (n : Nat) : (s.advancePc n).pc = s.pc + BitVec.ofNat 16 n := rfl
@[simp] theorem advancePc_mem (s : State) (n : Nat) : (s.advancePc n).mem = s.mem := rfl
@[simp] theorem advancePc_run (s : State) (n : Nat) : (s.advancePc n).run = s.run := rfl
@[simp] theorem advancePc_pcSeq (s : State) (n : Nat) : (s.advancePc n).pcSeq = s.pcSeq := rfl
@[simp] theorem advancePc_readByte (s : State) (n : Nat) (k : Addr) : (s.advancePc n).readByte k = s.readByte k := rfl

@[simp] theorem halt_a (s : State) : (s.halt).a = s.a := rfl
@[simp] theorem halt_x (s : State) : (s.halt).x = s.x := rfl
@[simp] theorem halt_y (s : State) : (s.halt).y = s.y := rfl
@[simp] theorem halt_p (s : State) : (s.halt).p = s.p := rfl
@[simp] theorem halt_pc (s : State) : (s.halt).pc = s.pc := rfl
@[simp] theorem halt_mem (s : State) : (s.halt).mem = s.mem := rfl
@[simp] theorem halt_run (s : State) : (s.halt).run = .halted := rfl
@[simp] theorem halt_pcSeq (s : State) : (s.halt).pcSeq = s.pcSeq := rfl
@[simp] theorem halt_readByte (s : State) (k : Addr) : (s.halt).readByte k = s.readByte k := rfl

@[simp] theorem raise_a (s : State) (kind : FaultKind) (op : Byte) : (s.raise kind op).a = s.a := rfl
@[simp] theorem raise_x (s : State) (kind : FaultKind) (op : Byte) : (s.raise kind op).x = s.x := rfl
@[simp] theorem raise_y (s : State) (kind : FaultKind) (op : Byte) : (s.raise kind op).y = s.y := rfl
@[simp] theorem raise_p (s : State) (kind : FaultKind) (op : Byte) : (s.raise kind op).p = s.p := rfl
@[simp] theorem raise_pc (s : State) (kind : FaultKind) (op : Byte) : (s.raise kind op).pc = s.pc := rfl
@[simp] theorem raise_mem (s : State) (kind : FaultKind) (op : Byte) : (s.raise kind op).mem = s.mem := rfl
@[simp] theorem raise_run (s : State) (kind : FaultKind) (op : Byte) : (s.raise kind op).run = .faulted kind op s.pc := rfl
@[simp] theorem raise_pcSeq (s : State) (kind : FaultKind) (op : Byte) : (s.raise kind op).pcSeq = s.pcSeq := rfl
@[simp] theorem raise_readByte (s : State) (kind : FaultKind) (op : Byte) (k : Addr) : (s.raise kind op).readByte k = s.readByte k := rfl

@[simp] theorem finish_a (s : State) (m : Mode) : (s.finish m).a = s.a := rfl
@[simp] theorem finish_x (s : State) (m : Mode) : (s.finish m).x = s.x := rfl
@[simp] theorem finish_y (s : State) (m : Mode) : (s.finish m).y = s.y := rfl
@[simp] theorem finish_p (s : State) (m : Mode) : (s.finish m).p = s.p := rfl
@[simp] theorem finish_pc (s : State) (m : Mode) : (s.finish m).pc = s.pc + BitVec.ofNat 16 (consumed s.pcSeq m) + BitVec.ofNat 16 (trailing s.pcSeq) := rfl
@[simp] theorem finish_mem (s : State) (m : Mode) : (s.finish m).mem = s.mem := rfl
@[simp] theorem finish_run (s : State) (m : Mode) : (s.finish m).run = s.run := rfl
@[simp] theorem finish_pcSeq (s : State) (m : Mode) : (s.finish m).pcSeq = s.pcSeq := rfl
@[simp] theorem finish_readByte (s : State) (m : Mode) (k : Addr) : (s.finish m).readByte k = s.readByte k := rfl

end Sys2Proof.Machine.State
end

