-- ==== Sys2Proof/Laws/Exec.lean ====
section
/-! SUPPORT. What an instruction's meaning can do, said once. -/

namespace Sys2Proof.Machine

/-- Every way an instruction's meaning changes the state: BRK halts; an implied instruction writes one register with its
flags; LDA, ROL and ROR write A with its flags and move PC by their mode; STA writes one byte and moves PC. -/
theorem exec_cases {i : Instr} {s t : State} (h : exec i s = .next t) :
    (i = .brk ∧ t = s.halt) ∨
    (∃ v, t = s.resultX v) ∨ (∃ v, t = s.resultY v) ∨ (∃ v, t = s.resultA v) ∨
    (∃ v m, t = (s.resultA v).finish m) ∨
    (∃ ea m, i.raw.handler = .addressed .sta ∧ t = (s.writeByte ea s.a).finish m) := by
  cases i <;> injection h with h <;> subst h <;>
    first
    | exact .inl ⟨rfl, rfl⟩
    | exact .inr (.inl ⟨_, rfl⟩)
    | exact .inr (.inr (.inl ⟨_, rfl⟩))
    | exact .inr (.inr (.inr (.inl ⟨_, rfl⟩)))
    | exact .inr (.inr (.inr (.inr (.inl ⟨_, _, rfl⟩))))
    | exact .inr (.inr (.inr (.inr (.inr ⟨_, _, rfl, rfl⟩))))

/-- A meaning keeps the memory's canonical form. -/
theorem exec_wf {i : Instr} {s t : State} (h : exec i s = .next t) (hm : s.mem.wf) : t.mem.wf := by
  rcases exec_cases h with ⟨-, rfl⟩ | ⟨v, rfl⟩ | ⟨v, rfl⟩ | ⟨v, rfl⟩ | ⟨v, m, rfl⟩ | ⟨ea, m, -, rfl⟩
  · exact hm
  · exact hm
  · exact hm
  · exact hm
  · exact hm
  · exact Memory.write_wf _ _ hm

/-- Only STA writes memory. -/
theorem exec_mem_of_not_sta {i : Instr} {s t : State} (h : exec i s = .next t)
    (hi : i.raw.handler ≠ .addressed .sta) : t.mem = s.mem := by
  rcases exec_cases h with ⟨-, rfl⟩ | ⟨v, rfl⟩ | ⟨v, rfl⟩ | ⟨v, rfl⟩ | ⟨v, m, rfl⟩ | ⟨ea, m, hs, rfl⟩
  · rfl
  · rfl
  · rfl
  · rfl
  · rfl
  · exact absurd hs hi

/-- The run state changes only by BRK. -/
theorem exec_run {i : Instr} {s t : State} (h : exec i s = .next t) : t.run = s.run ∨ (i = .brk ∧ t.run = .halted) := by
  rcases exec_cases h with ⟨rfl, rfl⟩ | ⟨v, rfl⟩ | ⟨v, rfl⟩ | ⟨v, rfl⟩ | ⟨v, m, rfl⟩ | ⟨ea, m, -, rfl⟩
  · exact .inr ⟨rfl, rfl⟩
  · exact .inl rfl
  · exact .inl rfl
  · exact .inl rfl
  · exact .inl rfl
  · exact .inl rfl

/-- P after a meaning is the old P or SetZN of some byte. -/
theorem exec_p {i : Instr} {s t : State} (h : exec i s = .next t) : t.p = s.p ∨ ∃ r, t.p = withZN s.p r := by
  rcases exec_cases h with ⟨-, rfl⟩ | ⟨v, rfl⟩ | ⟨v, rfl⟩ | ⟨v, rfl⟩ | ⟨v, m, rfl⟩ | ⟨ea, m, -, rfl⟩
  · exact .inl rfl
  · exact .inr ⟨v, rfl⟩
  · exact .inr ⟨v, rfl⟩
  · exact .inr ⟨v, rfl⟩
  · exact .inr ⟨v, rfl⟩
  · exact .inl rfl

/-- The configuration is never written. -/
theorem exec_pcSeq {i : Instr} {s t : State} (h : exec i s = .next t) : t.pcSeq = s.pcSeq := by
  rcases exec_cases h with ⟨-, rfl⟩ | ⟨v, rfl⟩ | ⟨v, rfl⟩ | ⟨v, rfl⟩ | ⟨v, m, rfl⟩ | ⟨ea, m, -, rfl⟩ <;> rfl

end Sys2Proof.Machine
end

