-- ==== Sys2Proof/Laws/Operands.lean ====
section
/-! SUPPORT. The effective addresses as numbers, and what the resolver may change. -/

namespace Sys2Proof.Machine

theorem eaZeroPage_toNat (b : Byte) : (eaZeroPage b).toNat = b.toNat := zext16_toNat b

theorem eaZeroPageX_toNat (b : Byte) (s : State) : (eaZeroPageX b s).toNat = (b.toNat + s.x.toNat) % 256 := by
  simp [eaZeroPageX, zext16_toNat]

theorem eaZeroPageY_toNat (b : Byte) (s : State) : (eaZeroPageY b s).toNat = (b.toNat + s.y.toNat) % 256 := by
  simp [eaZeroPageY, zext16_toNat]

theorem eaAbsoluteX_toNat (w : Addr) (s : State) : (eaAbsoluteX w s).toNat = (w.toNat + s.x.toNat) % 65536 := by
  simp [eaAbsoluteX, zext16_toNat]

theorem eaAbsoluteY_toNat (w : Addr) (s : State) : (eaAbsoluteY w s).toNat = (w.toNat + s.y.toNat) % 65536 := by
  simp [eaAbsoluteY, zext16_toNat]

/-- The zero-page pointer read as a number (R45). -/
theorem zpRead16_toNat (m : Memory) (p : Byte) :
    (m.zpRead16 p).toNat = (m.read (zext16 p)).toNat + 256 * (m.read (zext16 (p + 1))).toNat := wordOf_toNat _ _

/-- The resolver answers the state with PC moved by `consumed`, and nothing else changed (R80, R93). -/
theorem resolve_state {m : Mode} {s t : State} {ea : Addr} (h : resolve m s = some (ea, t)) :
    t = s.advancePc (consumed s.pcSeq m) := by
  cases m <;> simp_all [resolve]

/-- The resolver raises for NoneAddressing alone (R91). -/
theorem resolve_isSome (m : Mode) (s : State) : (resolve m s).isSome = true ↔ m ≠ .noneAddressing := by
  cases m <;> simp [resolve]

end Sys2Proof.Machine
end

