-- ==== Sys2Proof/Laws/Step.lean ====
section
/-! SUPPORT. What a step can do, said once. -/

namespace Sys2Proof.Machine

/-- The bytes a step fetches. -/
theorem instrBytes_eq (s : State) :
    s.instrBytes = [s.mem.read s.pc, s.mem.read (s.pc + 1), s.mem.read (s.pc + 1 + 1)] := rfl

/-- What the three bytes of a fetch decode to: an opcode without a row is rejected as unimplemented, and an opcode with
one is read with its operand. -/
theorem decode_instrBytes (s : State) :
    (decodeOpcode (s.readByte s.pc) = none ∧
      decode s.instrBytes = .reject (.unimplementedOpcode (s.readByte s.pc))) ∨
    ∃ h m o rest i, decodeOpcode (s.readByte s.pc) = some (h, m) ∧
      takeOperand m.format [s.mem.read (s.pc + 1), s.mem.read (s.pc + 1 + 1)] = some (o, rest) ∧
      RawInstr.toInstr ⟨h, m, o⟩ = some i ∧ decode s.instrBytes = .instr i rest := by
  cases e : decodeOpcode (s.readByte s.pc) with
  | none => exact .inl ⟨rfl, decode_cons_none _ e⟩
  | some d =>
    obtain ⟨h, m⟩ := d
    rcases decode_of_row [s.mem.read (s.pc + 1), s.mem.read (s.pc + 1 + 1)] e with ⟨ht, -⟩ | ⟨o, rest, i, ht, hi, hd⟩
    · have two := takeOperand_two m.format (s.mem.read (s.pc + 1)) (s.mem.read (s.pc + 1 + 1))
      rw [ht] at two
      cases two
    · exact .inr ⟨h, m, o, rest, i, rfl, ht, hi, hd⟩

/-- A running core over bytes that decode to an instruction runs it. -/
theorem step_of_decode {s : State} {i : Instr} {rest : List Byte} (hr : s.run = .running)
    (hd : decode s.instrBytes = .instr i rest) : step s = exec i s.pastOpcode := by
  simp [step, fetch, hr, hd, ofDecoded]

/-- A running core over an opcode without a row raises UnimplementedOpcode. -/
theorem step_of_unimplemented {s : State} (hr : s.run = .running) (hd : decodeOpcode (s.readByte s.pc) = none) :
    step s = .next (s.raise .unimplementedOpcode (s.readByte s.pc)) := by
  have : decode s.instrBytes = .reject (.unimplementedOpcode (s.readByte s.pc)) := decode_cons_none _ hd
  simp [step, fetch, hr, this, ofDecoded]

/-- Whatever a step answers with a next state: the core was running, and the step raised UnimplementedOpcode on an
opcode without a row, or ran the decoded instruction past its opcode. -/
theorem step_cases {s t : State} (h : step s = .next t) :
    s.run = .running ∧
    ((decodeOpcode (s.readByte s.pc) = none ∧ t = s.raise .unimplementedOpcode (s.readByte s.pc)) ∨
     ∃ i rest, decode s.instrBytes = .instr i rest ∧ exec i s.pastOpcode = .next t) := by
  cases hr : s.run with
  | halted => simp [step, fetch, hr] at h
  | faulted kind op pc => simp [step, fetch, hr] at h
  | running =>
    refine ⟨rfl, ?_⟩
    rcases decode_instrBytes s with ⟨hd, -⟩ | ⟨-, -, -, rest, i, -, -, -, hd⟩
    · rw [step_of_unimplemented hr hd] at h
      exact .inl ⟨hd, by injection h with h; exact h.symm⟩
    · exact .inr ⟨i, rest, hd, by rwa [step_of_decode hr hd] at h⟩

end Sys2Proof.Machine
end

