-- ==== Sys2Proof/Tests/Slice0.lean ====
section
/-! SUPPORT. Tests against the spec's own examples (spec/95_test_vectors.md sections 2.2 to 2.9, 30_encoding.md
R71), the WellFormed smoke tests, and the witnesses of the statements' hypotheses. -/

namespace Sys2Proof.Tests

open Sys2Proof.Machine Sys2Proof.Claims

/-- A small Running state: bytes at PC, and single bytes elsewhere. -/
def start (pc : Addr) (bytes : List Byte) (cells : List (Addr × Byte)) : State :=
  { State.reset with
    pc := pc
    mem := Memory.writeBytes (cells.foldl (fun m c => Memory.write m c.1 c.2) []) pc bytes }

/-- The same under SOURCE_COMPAT. -/
def compat (s : State) : State := { s with pcSeq := .sourceCompat }

/-- The state after one step. -/
def after (s : State) : Option State :=
  match step s with
  | .next t => some t
  | .fault _ => none
  | .refused _ => none

/-- What one step shows, under HARDWARE and under SOURCE_COMPAT. -/
def see {α : Type} (s : State) (f : State → α) : Option α × Option α :=
  ((after s).map f, (after (compat s)).map f)

/-! ## WellFormed smoke tests: an ill-formed term for each check -/

theorem test_smoke_sta_has_no_immediate :
    RawInstr.wellFormed ⟨.addressed .sta, .immediate, .byte 0x10⟩ = false := by decide

theorem test_smoke_ror_has_no_absoluteY :
    RawInstr.wellFormed ⟨.addressed .ror, .absoluteY, .word 0x1234⟩ = false := by decide

theorem test_smoke_rol_has_no_accumulator_form :
    RawInstr.wellFormed ⟨.addressed .rol, .noneAddressing, .none⟩ = false := by decide

theorem test_smoke_implied_takes_no_mode :
    RawInstr.wellFormed ⟨.implied .tax, .zeroPage, .byte 0x10⟩ = false := by decide

theorem test_smoke_no_opcode_uses_zeroPageY :
    RawInstr.wellFormed ⟨.addressed .lda, .zeroPageY, .byte 0x10⟩ = false := by decide

theorem test_smoke_operand_size_is_checked :
    RawInstr.wellFormed ⟨.addressed .lda, .absolute, .byte 0x10⟩ = false := by decide

theorem test_smoke_brk_takes_no_operand :
    RawInstr.wellFormed ⟨.brk, .noneAddressing, .byte 0x10⟩ = false := by decide

/-! ## Decoding: words written out bit by bit from R66 -/

theorem test_decode_implied :
    decode [0b00000000] = .instr .brk [] ∧
    decode [0b10101010] = .instr .tax [] ∧
    decode [0b10001010] = .instr .txa [] ∧
    decode [0b11001010] = .instr .dex [] ∧
    decode [0b11101000] = .instr .inx [] ∧
    decode [0b10101000] = .instr .tay [] ∧
    decode [0b10011000] = .instr .tya [] ∧
    decode [0b10001000] = .instr .dey [] ∧
    decode [0b11001000] = .instr .iny [] := by decide

theorem test_decode_lda :
    decode [0b10101001, 0x9C, 0xEE] = .instr (.ldaImm 0x9C) [0xEE] ∧
    decode [0b10100101, 0x9C, 0xEE] = .instr (.ldaZp 0x9C) [0xEE] ∧
    decode [0b10110101, 0x9C, 0xEE] = .instr (.ldaZpX 0x9C) [0xEE] ∧
    decode [0b10101101, 0x34, 0x12] = .instr (.ldaAbs 0x1234) [] ∧
    decode [0b10111101, 0x34, 0x12] = .instr (.ldaAbsX 0x1234) [] ∧
    decode [0b10111001, 0x34, 0x12] = .instr (.ldaAbsY 0x1234) [] ∧
    decode [0b10100001, 0x9C, 0xEE] = .instr (.ldaIndX 0x9C) [0xEE] ∧
    decode [0b10110001, 0x9C, 0xEE] = .instr (.ldaIndY 0x9C) [0xEE] := by decide

theorem test_decode_sta :
    decode [0b10000101, 0x9C, 0xEE] = .instr (.staZp 0x9C) [0xEE] ∧
    decode [0b10010101, 0x9C, 0xEE] = .instr (.staZpX 0x9C) [0xEE] ∧
    decode [0b10001101, 0x34, 0x12] = .instr (.staAbs 0x1234) [] ∧
    decode [0b10011101, 0x34, 0x12] = .instr (.staAbsX 0x1234) [] ∧
    decode [0b10011001, 0x34, 0x12] = .instr (.staAbsY 0x1234) [] ∧
    decode [0b10000001, 0x9C, 0xEE] = .instr (.staIndX 0x9C) [0xEE] ∧
    decode [0b10010001, 0x9C, 0xEE] = .instr (.staIndY 0x9C) [0xEE] := by decide

theorem test_decode_rol :
    decode [0b00100110, 0x9C, 0xEE] = .instr (.rolZp 0x9C) [0xEE] ∧
    decode [0b00110110, 0x9C, 0xEE] = .instr (.rolZpX 0x9C) [0xEE] ∧
    decode [0b00101110, 0x34, 0x12] = .instr (.rolAbs 0x1234) [] ∧
    decode [0b00111110, 0x34, 0x12] = .instr (.rolAbsX 0x1234) [] := by decide

theorem test_decode_ror :
    decode [0b01100110, 0x9C, 0xEE] = .instr (.rorZp 0x9C) [0xEE] ∧
    decode [0b01110110, 0x9C, 0xEE] = .instr (.rorZpX 0x9C) [0xEE] ∧
    decode [0b01101110, 0x34, 0x12] = .instr (.rorAbs 0x1234) [] ∧
    decode [0b01111110, 0x34, 0x12] = .instr (.rorAbsX 0x1234) [] := by decide

theorem test_decode_rejects_by_name :
    decode [0x2A] = .reject (.unimplementedOpcode 0x2A) ∧ decode [0x6A] = .reject (.unimplementedOpcode 0x6A) ∧
    decode [0x89, 0x10] = .reject (.unimplementedOpcode 0x89) ∧
    decode [0xEA] = .reject (.unimplementedOpcode 0xEA) ∧
    decode [0xAD, 0x34] = .reject .truncated ∧ decode [] = .reject .truncated := by decide

set_option maxRecDepth 4000 in
/-- 30_encoding.md R68: 224 of the 256 values have no row. -/
theorem test_decode_rejects_224_values :
    (List.range 256).countP (fun n => (decodeOpcode (BitVec.ofNat 8 n)).isNone) = 224 := by decide

/-- A defective descriptor is rejected as InvalidAddressingMode (60_exceptions.md R202). -/
theorem test_decode_defective_descriptor :
    decodeDescriptor 0xA9 (.addressed .lda) .noneAddressing [0x00, 0x00] =
      .reject (.invalidAddressingMode 0xA9) := by decide

/-! ## One step per instruction (95_test_vectors.md 2.2 to 2.6) -/

theorem test_tax :
    see { start 0x8000 [0xAA] [] with a := 0xC0 }
      (fun t => (t.x, t.p, t.pc)) =
      (some (0xC0, 0x80, 0x8001),
       some (0xC0, 0x80, 0x8001)) := by decide

theorem test_tax_zero :
    see { start 0x8000 [0xAA] [] with a := 0x00, x := 0x55 }
      (fun t => (t.x, t.p, t.pc)) =
      (some (0x00, 0x02, 0x8001),
       some (0x00, 0x02, 0x8001)) := by decide

theorem test_txa :
    see { start 0x8000 [0x8A] [] with x := 0x7F, a := 0x11, p := 0x82 }
      (fun t => (t.a, t.p, t.pc)) =
      (some (0x7F, 0x00, 0x8001),
       some (0x7F, 0x00, 0x8001)) := by decide

theorem test_txa_zero :
    see { start 0x8000 [0x8A] [] with x := 0x00, a := 0x80 }
      (fun t => (t.a, t.p, t.pc)) =
      (some (0x00, 0x02, 0x8001),
       some (0x00, 0x02, 0x8001)) := by decide

theorem test_dex_wraps :
    see { start 0x8000 [0xCA] [] with x := 0x00 }
      (fun t => (t.x, t.p, t.pc)) =
      (some (0xFF, 0x80, 0x8001),
       some (0xFF, 0x80, 0x8001)) := by decide

theorem test_dex :
    see { start 0x8000 [0xCA] [] with x := 0x80 }
      (fun t => (t.x, t.p, t.pc)) =
      (some (0x7F, 0x00, 0x8001),
       some (0x7F, 0x00, 0x8001)) := by decide

theorem test_inx_wraps :
    see { start 0x8000 [0xE8] [] with x := 0xFF }
      (fun t => (t.x, t.p, t.pc)) =
      (some (0x00, 0x02, 0x8001),
       some (0x00, 0x02, 0x8001)) := by decide

theorem test_inx :
    see { start 0x8000 [0xE8] [] with x := 0x7F }
      (fun t => (t.x, t.p, t.pc)) =
      (some (0x80, 0x80, 0x8001),
       some (0x80, 0x80, 0x8001)) := by decide

theorem test_tay :
    see { start 0x8000 [0xA8] [] with a := 0xFF }
      (fun t => (t.y, t.p, t.pc)) =
      (some (0xFF, 0x80, 0x8001),
       some (0xFF, 0x80, 0x8001)) := by decide

theorem test_tay_zero :
    see { start 0x8000 [0xA8] [] with a := 0x00, y := 0x09 }
      (fun t => (t.y, t.p, t.pc)) =
      (some (0x00, 0x02, 0x8001),
       some (0x00, 0x02, 0x8001)) := by decide

theorem test_tya :
    see { start 0x8000 [0x98] [] with y := 0x01, a := 0x00 }
      (fun t => (t.a, t.p, t.pc)) =
      (some (0x01, 0x00, 0x8001),
       some (0x01, 0x00, 0x8001)) := by decide

theorem test_tya_zero :
    see { start 0x8000 [0x98] [] with y := 0x00, a := 0xFF }
      (fun t => (t.a, t.p, t.pc)) =
      (some (0x00, 0x02, 0x8001),
       some (0x00, 0x02, 0x8001)) := by decide

theorem test_dey_wraps :
    see { start 0x8000 [0x88] [] with y := 0x00 }
      (fun t => (t.y, t.p, t.pc)) =
      (some (0xFF, 0x80, 0x8001),
       some (0xFF, 0x80, 0x8001)) := by decide

theorem test_dey :
    see { start 0x8000 [0x88] [] with y := 0x81 }
      (fun t => (t.y, t.p, t.pc)) =
      (some (0x80, 0x80, 0x8001),
       some (0x80, 0x80, 0x8001)) := by decide

theorem test_iny_wraps :
    see { start 0x8000 [0xC8] [] with y := 0xFF }
      (fun t => (t.y, t.p, t.pc)) =
      (some (0x00, 0x02, 0x8001),
       some (0x00, 0x02, 0x8001)) := by decide

theorem test_iny :
    see { start 0x8000 [0xC8] [] with y := 0x7F }
      (fun t => (t.y, t.p, t.pc)) =
      (some (0x80, 0x80, 0x8001),
       some (0x80, 0x80, 0x8001)) := by decide

theorem test_inx_at_the_top :
    see (start 0xFFFF [0xE8] [])
      (fun t => (t.x, t.p, t.pc)) =
      (some (0x01, 0x00, 0x0000),
       some (0x01, 0x00, 0x0000)) := by decide

theorem test_lda_immediate :
    see (start 0x8000 [0xA9, 0xC0] [])
      (fun t => (t.a, t.p, t.pc)) =
      (some (0xC0, 0x80, 0x8002),
       some (0xC0, 0x80, 0x8002)) := by decide

theorem test_lda_immediate_at_the_top :
    see (start 0xFFFF [0xA9, 0x80] [])
      (fun t => (t.a, t.p, t.pc)) =
      (some (0x80, 0x80, 0x0001),
       some (0x80, 0x80, 0x0001)) := by decide

theorem test_lda_zeroPage :
    see { start 0x8000 [0xA5, 0x10] [] with a := 0x55, p := 0x80 }
      (fun t => (t.a, t.p, t.pc)) =
      (some (0x00, 0x02, 0x8002),
       some (0x00, 0x02, 0x8003)) := by decide

theorem test_lda_zeroPageX :
    see { start 0x8000 [0xB5, 0xF0] [(0x0010, 0x42), (0x0110, 0x99)] with x := 0x20 }
      (fun t => (t.a, t.p, t.pc)) =
      (some (0x42, 0x00, 0x8002),
       some (0x42, 0x00, 0x8003)) := by decide

theorem test_lda_absolute :
    see (start 0x8000 [0xAD, 0x34, 0x12] [(0x1234, 0x80)])
      (fun t => (t.a, t.p, t.pc)) =
      (some (0x80, 0x80, 0x8003),
       some (0x80, 0x80, 0x8004)) := by decide

theorem test_lda_absolute_across_the_top :
    see (start 0xFFFE [0xAD, 0x34, 0x12] [(0x1234, 0x9A)])
      (fun t => (t.a, t.p, t.pc)) =
      (some (0x9A, 0x80, 0x0001),
       some (0x9A, 0x80, 0x0002)) := by decide

theorem test_lda_absoluteX :
    see { start 0x8000 [0xBD, 0xF0, 0xFF] [(0x0010, 0x01)] with x := 0x20 }
      (fun t => (t.a, t.p, t.pc)) =
      (some (0x01, 0x00, 0x8003),
       some (0x01, 0x00, 0x8004)) := by decide

theorem test_lda_absoluteY :
    see { start 0x8000 [0xB9, 0xFF, 0xFF] [(0x0000, 0x7F)] with y := 0x01 }
      (fun t => (t.a, t.p, t.pc)) =
      (some (0x7F, 0x00, 0x8003),
       some (0x7F, 0x00, 0x8004)) := by decide

theorem test_lda_indirectX :
    see { start 0x8000 [0xA1, 0xFE] [(0x00FF, 0x34), (0x0000, 0x12), (0x0100, 0x56), (0x1234, 0x55)] with x := 0x01 }
      (fun t => (t.a, t.p, t.pc)) =
      (some (0x55, 0x00, 0x8002),
       some (0x55, 0x00, 0x8003)) := by decide

theorem test_lda_indirectX_pointer_wraps :
    see { start 0x8000 [0xA1, 0x10] [(0x0005, 0x00), (0x0006, 0x30), (0x3000, 0x11)] with x := 0xF5 }
      (fun t => (t.a, t.p, t.pc)) =
      (some (0x11, 0x00, 0x8002),
       some (0x11, 0x00, 0x8003)) := by decide

theorem test_lda_indirectY :
    see { start 0x8000 [0xB1, 0x20] [(0x0020, 0xF0), (0x0021, 0x12), (0x1310, 0x00)] with y := 0x20, a := 0x09 }
      (fun t => (t.a, t.p, t.pc)) =
      (some (0x00, 0x02, 0x8002),
       some (0x00, 0x02, 0x8003)) := by decide

theorem test_lda_indirectY_sum_wraps :
    see { start 0x8000 [0xB1, 0x10] [(0x0010, 0xFF), (0x0011, 0xFF), (0x0001, 0x80)] with y := 0x02 }
      (fun t => (t.a, t.p, t.pc)) =
      (some (0x80, 0x80, 0x8002),
       some (0x80, 0x80, 0x8003)) := by decide

theorem test_sta_zeroPage :
    see { start 0x8000 [0x85, 0x10] [] with a := 0x42, p := 0x80 }
      (fun t => (t.readByte 0x0010, t.p, t.pc)) =
      (some (0x42, 0x80, 0x8002),
       some (0x42, 0x80, 0x8003)) := by decide

theorem test_sta_zeroPage_across_the_top :
    see { start 0xFFFE [0x85, 0x40] [] with a := 0x5A }
      (fun t => (t.readByte 0x0040, t.p, t.pc)) =
      (some (0x5A, 0x00, 0x0000),
       some (0x5A, 0x00, 0x0001)) := by decide

theorem test_sta_zeroPageX :
    see { start 0x8000 [0x95, 0x80] [] with a := 0x42, x := 0xFF }
      (fun t => (t.readByte 0x007F, t.p, t.pc)) =
      (some (0x42, 0x00, 0x8002),
       some (0x42, 0x00, 0x8003)) := by decide

theorem test_sta_absolute :
    see { start 0x8000 [0x8D, 0xFC, 0xFF] [(0xFFFD, 0x80)] with a := 0x34 }
      (fun t => (t.readByte 0xFFFC, t.p, t.pc)) =
      (some (0x34, 0x00, 0x8003),
       some (0x34, 0x00, 0x8004)) := by decide

theorem test_sta_absoluteX :
    see { start 0x8000 [0x9D, 0xFF, 0xFF] [] with a := 0x42, x := 0xFF }
      (fun t => (t.readByte 0x00FE, t.p, t.pc)) =
      (some (0x42, 0x00, 0x8003),
       some (0x42, 0x00, 0x8004)) := by decide

theorem test_sta_absoluteY :
    see { start 0x8000 [0x99, 0x00, 0x02] [] with a := 0x33, y := 0x05 }
      (fun t => (t.readByte 0x0205, t.p, t.pc)) =
      (some (0x33, 0x00, 0x8003),
       some (0x33, 0x00, 0x8004)) := by decide

theorem test_sta_indirectX :
    see { start 0x8000 [0x81, 0xFC] [(0x00FF, 0x34), (0x0000, 0x12)] with a := 0x99, x := 0x03 }
      (fun t => (t.readByte 0x1234, t.p, t.pc)) =
      (some (0x99, 0x00, 0x8002),
       some (0x99, 0x00, 0x8003)) := by decide

theorem test_sta_indirectY :
    see { start 0x8000 [0x91, 0xFF] [(0x00FF, 0x34), (0x0000, 0x12)] with a := 0x99, y := 0x02 }
      (fun t => (t.readByte 0x1236, t.p, t.pc)) =
      (some (0x99, 0x00, 0x8002),
       some (0x99, 0x00, 0x8003)) := by decide

theorem test_rol_zeroPage :
    see { start 0x8000 [0x26, 0x10] [(0x0010, 0x81)] with a := 0x33 }
      (fun t => (t.readByte 0x0010, t.a, t.p, t.pc)) =
      (some (0x81, 0x02, 0x00, 0x8002),
       some (0x81, 0x02, 0x00, 0x8003)) := by decide

theorem test_rol_zeroPage_negative :
    see (start 0x8000 [0x26, 0x10] [(0x0010, 0xFF)])
      (fun t => (t.readByte 0x0010, t.a, t.p, t.pc)) =
      (some (0xFF, 0xFE, 0x80, 0x8002),
       some (0xFF, 0xFE, 0x80, 0x8003)) := by decide

theorem test_rol_zeroPageX :
    see { start 0x8000 [0x36, 0x0F] [(0x0010, 0x40)] with x := 0x01 }
      (fun t => (t.readByte 0x0010, t.a, t.p, t.pc)) =
      (some (0x40, 0x80, 0x80, 0x8002),
       some (0x40, 0x80, 0x80, 0x8003)) := by decide

theorem test_rol_absolute :
    see (start 0x8000 [0x2E, 0x00, 0x02] [(0x0200, 0x80)])
      (fun t => (t.readByte 0x0200, t.a, t.p, t.pc)) =
      (some (0x80, 0x00, 0x02, 0x8003),
       some (0x80, 0x00, 0x02, 0x8004)) := by decide

theorem test_rol_absoluteX :
    see { start 0x8000 [0x3E, 0xFF, 0x01] [(0x0200, 0xC0)] with x := 0x01 }
      (fun t => (t.readByte 0x0200, t.a, t.p, t.pc)) =
      (some (0xC0, 0x80, 0x80, 0x8003),
       some (0xC0, 0x80, 0x80, 0x8004)) := by decide

theorem test_ror_zeroPage :
    see (start 0x8000 [0x66, 0x10] [(0x0010, 0x01)])
      (fun t => (t.readByte 0x0010, t.a, t.p, t.pc)) =
      (some (0x01, 0x00, 0x02, 0x8002),
       some (0x01, 0x00, 0x02, 0x8003)) := by decide

theorem test_ror_zeroPage_never_negative :
    see (start 0x8000 [0x66, 0x10] [(0x0010, 0xFF)])
      (fun t => (t.readByte 0x0010, t.a, t.p, t.pc)) =
      (some (0xFF, 0x7F, 0x00, 0x8002),
       some (0xFF, 0x7F, 0x00, 0x8003)) := by decide

theorem test_ror_zeroPageX :
    see { start 0x8000 [0x76, 0x0F] [(0x0010, 0xFF)] with x := 0x01 }
      (fun t => (t.readByte 0x0010, t.a, t.p, t.pc)) =
      (some (0xFF, 0x7F, 0x00, 0x8002),
       some (0xFF, 0x7F, 0x00, 0x8003)) := by decide

theorem test_ror_absolute :
    see (start 0x8000 [0x6E, 0x00, 0x02] [(0x0200, 0x80)])
      (fun t => (t.readByte 0x0200, t.a, t.p, t.pc)) =
      (some (0x80, 0x40, 0x00, 0x8003),
       some (0x80, 0x40, 0x00, 0x8004)) := by decide

theorem test_ror_absoluteX :
    see { start 0x8000 [0x7E, 0xFF, 0xFF] [(0x0001, 0x03)] with x := 0x02 }
      (fun t => (t.readByte 0x0001, t.a, t.p, t.pc)) =
      (some (0x03, 0x01, 0x00, 0x8003),
       some (0x03, 0x01, 0x00, 0x8004)) := by decide

theorem test_brk :
    see { start 0x8000 [0x00] [] with a := 0x12, x := 0x34, y := 0x56, p := 0x80 }
      (fun t => (t.inspect)) =
      (some (⟨0x12, 0x34, 0x56, 0x80, 0x8001, .halted⟩),
       some (⟨0x12, 0x34, 0x56, 0x80, 0x8001, .halted⟩)) := by decide

theorem test_brk_at_the_top :
    see (start 0xFFFF [0x00] [])
      (fun t => (t.run, t.pc)) =
      (some (.halted, 0x0000),
       some (.halted, 0x0000)) := by decide

theorem test_unimplemented :
    see { start 0x8000 [0xFF] [] with a := 0x01, x := 0x02, y := 0x03, p := 0x80 }
      (fun t => (t.inspect)) =
      (some (⟨0x01, 0x02, 0x03, 0x80, 0x8000, .faulted .unimplementedOpcode 0xFF 0x8000⟩),
       some (⟨0x01, 0x02, 0x03, 0x80, 0x8000, .faulted .unimplementedOpcode 0xFF 0x8000⟩)) := by decide

theorem test_unimplemented_at_the_top :
    see (start 0xFFFF [0x6A] [])
      (fun t => (t.run, t.pc)) =
      (some (.faulted .unimplementedOpcode 0x6A 0xFFFF, 0xFFFF),
       some (.faulted .unimplementedOpcode 0x6A 0xFFFF, 0xFFFF)) := by decide

/-- No step is enabled in Halted or Faulted (95_test_vectors.md 2.5, 2.7). -/
theorem test_no_step_when_stopped :
    after { start 0x8000 [0xE8] [] with run := .halted } = none ∧
    after { start 0x8000 [0xE8] [] with run := .faulted .unimplementedOpcode 0xFF 0x8000 } = none := by decide

/-! ## Flags, memory, resolver, reset and load (95_test_vectors.md 2.1, 2.3, 2.8, 2.9) -/

theorem test_setZN :
    withZN 0x00 0x00 = 0x02 ∧ withZN 0x00 0x80 = 0x80 ∧ withZN 0x00 0x7F = 0x00 ∧ withZN 0x82 0x01 = 0x00 ∧
    withZN 0x7D 0x00 = 0x7F ∧ withZN 0x7D 0xFF = 0xFD ∧ withZN 0xFF 0x42 = 0x7D := by decide

theorem test_words :
    (Memory.writeWord [] 0xFFFF 0xBEEF).read 0xFFFF = 0xEF ∧
    (Memory.writeWord [] 0xFFFF 0xBEEF).read 0x0000 = 0xBE ∧
    (Memory.writeWord [] 0xFFFF 0xBEEF).readWord 0xFFFF = 0xBEEF ∧
    (start 0x0100 [0x56] [(0x00FF, 0x34), (0x0000, 0x12)]).mem.zpRead16 0xFF = 0x1234 ∧
    (start 0x0100 [0x56] [(0x00FF, 0x34), (0x0000, 0x12)]).mem.readWord 0x00FF = 0x5634 := by decide

theorem test_memory_keeps_its_form :
    Memory.write [(3, 0x01), (7, 0x02)] 5 0x09 = [(3, 0x01), (5, 0x09), (7, 0x02)] ∧
    Memory.write [(3, 0x01), (7, 0x02)] 3 0x00 = [(7, 0x02)] ∧
    Memory.write [(3, 0x01), (7, 0x02)] 7 0x04 = [(3, 0x01), (7, 0x04)] := by decide

theorem test_resolve_zeroPageY :
    (resolve .zeroPageY { start 0x8001 [0x10] [] with y := 0xF5 }).map (fun r => (r.1, r.2.pc)) =
      some (0x0005, 0x8002) := by decide

theorem test_reset_reads_the_vector :
    let s := { start 0x1111 [] [(0xFFFC, 0x34), (0xFFFD, 0x12)] with a := 0x05, p := 0xFF, run := .halted }
    (s.hostReset.a, s.hostReset.p, s.hostReset.pc, s.hostReset.run) = (0x00, 0x00, 0x1234, .running) := by decide

theorem test_load_writes_the_vector :
    loadedMemory [] [0xA9, 0x05] = [(0x8000, 0xA9), (0x8001, 0x05), (0xFFFD, 0x80)] := by decide

/-- The assembler's examples (30_encoding.md R71). -/
theorem test_assembler :
    Assembler.assemble ['T', 'A', 'X'] = some [0xAA] ∧
    Assembler.assemble ['L', 'D', 'A', ' ', '#', '$', 'C', '0'] = some [0xA9, 0xC0] ∧
    Assembler.assemble ['S', 'T', 'A', ' ', '$', '0', '2', '0', '0'] = some [0x8D, 0x00, 0x02] ∧
    Assembler.assemble ['L', 'D', 'A', ' ', '(', '$', '2', '0', ',', 'X', ')'] = some [0xA1, 0x20] ∧
    Assembler.assemble ['S', 'T', 'A', ' ', '(', '0', 'x', '2', '0', ')', ',', 'Y'] = some [0x91, 0x20] := by decide

theorem test_assembler_refuses :
    Assembler.assemble ['S', 'T', 'A', ' ', '#', '$', '1', '0'] = none ∧
    Assembler.assemble ['R', 'O', 'L', ' ', 'A'] = none ∧
    Assembler.assemble ['R', 'O', 'R', ' ', '$', '1', '2', '3', '4', ',', 'Y'] = none := by decide

/-- A table word placed for the next step is what it runs (bit 0 is the least significant of the first byte). -/
theorem test_withFetchWord :
    decodeTableWord 24 0x1234AD = some (.ldaAbs 0x1234) ∧ decodeTableWord 8 0xA9 = some (.ldaImm 0x00) ∧
    (after (State.reset.withFetchWord 16 0xC0A9)).map (fun t => (t.a, t.p)) = some (0xC0, 0x80) := by decide

/-! ## Witnesses: states and operands that meet each statement's hypotheses -/

theorem witness_decoded_bytes : decode [0xB9, 0xFF, 0xFF, 0x00] = .instr (.ldaAbsY 0xFFFF) [0x00] := by decide

theorem witness_raw_instructions :
    RawInstr.wellFormed ⟨.addressed .sta, .indirectY, .byte 0xFF⟩ = true ∧
    RawInstr.wellFormed ⟨.addressed .sta, .immediate, .byte 0xFF⟩ = false := by decide

/-- The instruction's bytes lie across the top of the address space. -/
theorem witness_step_decodes :
    let s := start 0xFFFE [0xAD, 0x34, 0x12] []
    s.run = .running ∧
    decode [s.mem.read s.pc, s.mem.read (s.pc + 1), s.mem.read (s.pc + 2)] = .instr (.ldaAbs 0x1234) [] := by decide

theorem witness_step_encodes : Ready (start 0xFFFE [0xAD, 0x34, 0x12] []) (encode (.ldaAbs 0x1234)) := by decide

theorem witness_running : State.reset.run = .running := by decide

theorem witness_modes : Mode.immediate ≠ .noneAddressing ∧ Mode.noneAddressing = .noneAddressing := by decide

theorem witness_stopped :
    ({ State.reset with run := .halted } : State).run = .halted ∧
    ({ State.reset with run := .faulted .unimplementedOpcode 0xFF 0x8000 } : State).run =
      .faulted .unimplementedOpcode 0xFF 0x8000 := by decide

theorem witness_opcode_at_pc :
    (start 0xFFFF [0x00] []).mem.read 0xFFFF = 0x00 ∧
    (start 0xFFFF [0x7E] []).mem.read 0xFFFF ≠ 0x00 ∧ (start 0xFFFF [0x7E] []).mem.read 0xFFFF ∈ opcodeValues ∧
    (start 0xFFFF [0xFF] []).mem.read 0xFFFF ∉ opcodeValues ∧
    (start 0xFFFF [0x00] []).run = .running ∧ (start 0xFFFF [0x7E] []).run = .running ∧
    (start 0xFFFF [0xFF] []).run = .running := by decide

theorem witness_defective_map :
    ∃ (map : Byte → Option (Handler × Mode)) (s : State),
      map (s.mem.read s.pc) = some (.addressed .lda, .noneAddressing) :=
  ⟨fun _ => some (.addressed .lda, .noneAddressing), State.reset, rfl⟩

theorem witness_step_answers_next : ∃ t, step (start 0x8000 [0xE8] []) = .next t ∧ t.run = .running :=
  ⟨_, rfl, rfl⟩

theorem witness_step_faults :
    ∃ t, step (start 0x8000 [0xFF] []) = .next t ∧ ∃ kind op pc, t.run = .faulted kind op pc :=
  ⟨_, rfl, _, _, _, rfl⟩

theorem witness_implied_bytes :
    Ready (start 0xFFFF [0x00] []) [0x00] ∧
    Ready (start 0xFFFF [0xAA] []) [0xAA] ∧
    Ready (start 0xFFFF [0x8A] []) [0x8A] ∧
    Ready (start 0xFFFF [0xA8] []) [0xA8] ∧
    Ready (start 0xFFFF [0x98] []) [0x98] ∧
    Ready (start 0xFFFF [0xCA] []) [0xCA] ∧
    Ready (start 0xFFFF [0xE8] []) [0xE8] ∧
    Ready (start 0xFFFF [0x88] []) [0x88] ∧
    Ready (start 0xFFFF [0xC8] []) [0xC8] := by decide

theorem witness_lda_bytes :
    Ready (start 0xFFFF [0xA9, 0xFF] []) [0xA9, 0xFF] ∧
    Ready (start 0xFFFF [0xA5, 0xFF] []) [0xA5, 0xFF] ∧
    Ready (start 0xFFFF [0xB5, 0xFF] []) [0xB5, 0xFF] ∧
    Ready (start 0xFFFF [0xAD, 0xFF, 0xFF] []) [0xAD, 0xFF, 0xFF] ∧
    Ready (start 0xFFFF [0xBD, 0xFF, 0xFF] []) [0xBD, 0xFF, 0xFF] ∧
    Ready (start 0xFFFF [0xB9, 0xFF, 0xFF] []) [0xB9, 0xFF, 0xFF] ∧
    Ready (start 0xFFFF [0xA1, 0xFF] []) [0xA1, 0xFF] ∧
    Ready (start 0xFFFF [0xB1, 0xFF] []) [0xB1, 0xFF] := by decide

theorem witness_sta_bytes :
    Ready (start 0xFFFF [0x85, 0xFF] []) [0x85, 0xFF] ∧
    Ready (start 0xFFFF [0x95, 0xFF] []) [0x95, 0xFF] ∧
    Ready (start 0xFFFF [0x8D, 0xFF, 0xFF] []) [0x8D, 0xFF, 0xFF] ∧
    Ready (start 0xFFFF [0x9D, 0xFF, 0xFF] []) [0x9D, 0xFF, 0xFF] ∧
    Ready (start 0xFFFF [0x99, 0xFF, 0xFF] []) [0x99, 0xFF, 0xFF] ∧
    Ready (start 0xFFFF [0x81, 0xFF] []) [0x81, 0xFF] ∧
    Ready (start 0xFFFF [0x91, 0xFF] []) [0x91, 0xFF] := by decide

theorem witness_rol_ror_bytes :
    Ready (start 0xFFFF [0x26, 0xFF] []) [0x26, 0xFF] ∧
    Ready (start 0xFFFF [0x36, 0xFF] []) [0x36, 0xFF] ∧
    Ready (start 0xFFFF [0x2E, 0xFF, 0xFF] []) [0x2E, 0xFF, 0xFF] ∧
    Ready (start 0xFFFF [0x3E, 0xFF, 0xFF] []) [0x3E, 0xFF, 0xFF] ∧
    Ready (start 0xFFFF [0x66, 0xFF] []) [0x66, 0xFF] ∧
    Ready (start 0xFFFF [0x76, 0xFF] []) [0x76, 0xFF] ∧
    Ready (start 0xFFFF [0x6E, 0xFF, 0xFF] []) [0x6E, 0xFF, 0xFF] ∧
    Ready (start 0xFFFF [0x7E, 0xFF, 0xFF] []) [0x7E, 0xFF, 0xFF] := by decide

/-- The pointer at 0xFF has its high byte at 0x00, for both indirect modes. -/
theorem witness_indirect_pointer :
    let s := { start 0x8001 [0xFE] [] with x := 0x01 }
    let u := start 0x8001 [0xFF] []
    (0x00FF : Addr).toNat = ((s.mem.read s.pc).toNat + s.x.toNat) % 256 ∧
    (0x0000 : Addr).toNat = ((s.mem.read s.pc).toNat + s.x.toNat + 1) % 256 ∧
    (0x00FF : Addr).toNat = (u.mem.read u.pc).toNat ∧
    (0x0000 : Addr).toNat = ((u.mem.read u.pc).toNat + 1) % 256 := by decide

theorem witness_zero_page_pointer :
    (0x00FF : Addr).toNat = (0xFF : Byte).toNat ∧ (0x0000 : Addr).toNat = ((0xFF : Byte).toNat + 1) % 256 := by decide

theorem witness_word_at_the_top : (0x0000 : Addr).toNat = ((0xFFFF : Addr).toNat + 1) % 65536 := by decide

theorem witness_canonical_memories :
    Memory.wf [(0, 0x01), (65535, 0xFF)] ∧
    ∀ k : Addr, Memory.read [(0, 0x01), (65535, 0xFF)] k = Memory.read [(0, 0x01), (65535, 0xFF)] k :=
  ⟨by decide, fun _ => rfl⟩

/-- At an instruction that writes Z and N, and at one that keeps P. -/
theorem witness_states_that_differ_in_P :
    (SameButP (start 0x8000 [0xE8] []) { start 0x8000 [0xE8] [] with p := 0xFF } ∧
      ∃ t, step (start 0x8000 [0xE8] []) = .next t) ∧
    (SameButP (start 0x8000 [0x85, 0x10] []) { start 0x8000 [0x85, 0x10] [] with p := 0xFF } ∧
      ∃ t, step (start 0x8000 [0x85, 0x10] []) = .next t) :=
  ⟨⟨⟨rfl, rfl, rfl, rfl, rfl, rfl, rfl⟩, _, rfl⟩, ⟨rfl, rfl, rfl, rfl, rfl, rfl, rfl⟩, _, rfl⟩

/-- A memory full of INX exists: the addresses listed are all those of R40. -/
theorem witness_memory_of_inx :
    ∃ s : State, s.run = .running ∧ ∀ k : Addr, s.mem.read k = 0xE8 := by
  have full : ∀ (k n j : Nat), j ≤ k → k < j + n →
      Memory.lookup ((List.range' j n).map (fun a => (a, (0xE8 : Byte)))) k = 0xE8 := by
    intro k n
    induction n with
    | zero => intro j h1 h2; omega
    | succ n ih =>
      intro j h1 h2
      simp only [List.range'_succ, List.map_cons, Memory.lookup]
      rcases Nat.lt_or_eq_of_le h1 with h | h
      · rw [if_pos h]; exact ih (j + 1) h (by omega)
      · rw [if_neg (by omega), if_pos h]
  exact ⟨State.reset.setMem ((List.range' 0 65536).map (fun a => (a, 0xE8))), rfl,
    fun k => full k.toNat 65536 0 (Nat.zero_le _) (by have := k.isLt; omega)⟩

theorem witness_not_a_store :
    (start 0x8000 [0x26, 0x10] []).mem.read 0x8000 ∉ ([0x85, 0x95, 0x8D, 0x9D, 0x99, 0x81, 0x91] : List Byte) ∧
    ∃ t, step (start 0x8000 [0x26, 0x10] []) = .next t :=
  ⟨by decide, _, rfl⟩

theorem witness_invariant :
    (start 0x8000 [0x85, 0x10] []).Inv ∧ ∃ t, step (start 0x8000 [0x85, 0x10] []) = .next t :=
  ⟨by decide, _, rfl⟩

/-- Images at both ends of the lengths `load` takes, and the first it refuses. -/
theorem witness_image_lengths :
    ([] : List Byte).length ≤ 0x7FFF ∧ (List.replicate 0x7FFF (0xE8 : Byte)).length ≤ 0x7FFF ∧
    0x7FFF < (List.replicate 0x8000 (0xE8 : Byte)).length := by
  simp only [List.length_replicate, List.length_nil]
  omega

/-- The last byte of the longest image, and an address at each side of that image. -/
theorem witness_image_offsets :
    0x7FFE < (List.replicate 0x7FFF (0xE8 : Byte)).length ∧ (0x7FFE : Nat) ≠ 0x7FFC ∧ (0x7FFE : Nat) ≠ 0x7FFD ∧
    (0xFFFF : Addr) ≠ 0xFFFC ∧ (0xFFFF : Addr) ≠ 0xFFFD ∧
    0x8000 + (List.replicate 0x7FFF (0xE8 : Byte)).length ≤ (0xFFFF : Addr).toNat ∧
    (0x7FFF : Addr).toNat < 0x8000 := by
  simp only [List.length_replicate]
  decide

theorem witness_load_answers_next : ∃ t, State.reset.hostLoad [0xA9, 0x05, 0x00] = .next t := ⟨_, rfl⟩

theorem witness_transactions :
    (∃ t, transact (.load [0x00]) State.reset = .next t) ∧ (∃ t, transact .reset State.reset = .next t) ∧
    (∃ t, transact .step State.reset = .next t) ∧ (∃ t, transact (.setReg (.a 0xFF)) State.reset = .next t) ∧
    (∃ t, transact (.setReg (.x 0xFF)) State.reset = .next t) ∧
    (∃ t, transact (.setReg (.y 0xFF)) State.reset = .next t) ∧
    (∃ t, transact (.setReg (.p 0xFF)) State.reset = .next t) ∧
    (∃ t, transact (.setReg (.pc 0xFFFF)) State.reset = .next t) :=
  ⟨⟨_, rfl⟩, ⟨_, rfl⟩, ⟨_, rfl⟩, ⟨_, rfl⟩, ⟨_, rfl⟩, ⟨_, rfl⟩, ⟨_, rfl⟩, ⟨_, rfl⟩⟩

theorem witness_table_word : decodeTableWord 24 0xFFFF7E = some (.rorAbsX 0xFFFF) := by decide

end Sys2Proof.Tests
end

namespace Sys2Proof.Machine

@[simp] theorem State.pastOpcode_run (s : State) : s.pastOpcode.run = s.run := rfl

/-- Every instruction's meaning answers a next state: no arm of `exec` faults or is refused. -/
theorem exec_isNext (i : Instr) (s : State) : ∃ t, exec i s = .next t := by
  cases i <;> exact ⟨_, rfl⟩

/-- A running core always answers a next state: it takes the fault of an opcode without a row (R104), or runs the
decoded instruction (R103). -/
theorem step_isNext_of_running {s : State} (hr : s.run = .running) : ∃ t, step s = .next t := by
  rcases decode_instrBytes s with ⟨hrow, -⟩ | ⟨-, -, -, rest, i, -, -, -, hd⟩
  · exact ⟨_, step_of_unimplemented hr hrow⟩
  · obtain ⟨t, ht⟩ := exec_isNext i s.pastOpcode
    exact ⟨t, (step_of_decode hr hd).trans ht⟩

end Sys2Proof.Machine

namespace Sys2Proof.Claims

open Sys2Proof.Machine

/-- Taking a fault keeps every register and byte (60_exceptions.md R206). -/
theorem sameButRun_raise (s : State) (kind : FaultKind) (op : Byte) : SameButRun s (s.raise kind op) :=
  ⟨rfl, rfl, rfl, rfl, rfl, rfl, fun _ => rfl⟩

/-- Settles O11: the step of an opcode without a row raises, which keeps all but the run state; the step of any other
opcode runs an instruction, which keeps the run state or halts. -/
theorem stepResultIsOneOfThree : Obligations.StepResultIsOneOfThree := by
  intro s hr
  obtain ⟨t, ht⟩ := step_isNext_of_running hr
  refine ⟨t, ht, ?_⟩
  obtain ⟨-, ⟨-, rfl⟩ | ⟨i, rest, -, hexec⟩⟩ := step_cases ht
  · exact .inr (.inr ⟨sameButRun_raise s _ _, _, _, _, State.raise_run s _ _⟩)
  · rcases exec_run hexec with hkept | ⟨-, hhalted⟩
    · exact .inl (by rw [hkept, State.pastOpcode_run, hr])
    · exact .inr (.inl hhalted)

end Sys2Proof.Claims

namespace Sys2Proof.Claims

open Sys2Proof.Machine

/-- SetZN leaves the flags of its byte, Z and N read as facts about the byte's number (R28, R29, R31). -/
theorem flagsOf_withZN (p r : Byte) : FlagsOf p (withZN p r) r := by
  refine ⟨?z, ?n, withZN_bit p r⟩
  case z =>
    calc (withZN p r).getLsbD 1 = (r == 0) := zFlag_withZN p r
      _ = decide (r.toNat = 0) := by simp [Bool.beq_eq_decide_eq, BitVec.toNat_eq]
  case n =>
    calc (withZN p r).getLsbD 7 = r.getLsbD 7 := nFlag_withZN p r
      _ = decide (128 ≤ r.toNat) := BitVec.msb_eq_getLsbD_last r ▸ BitVec.msb_eq_decide r

/-- Settles O38: the flags bit by bit, the reserved bits by mask, and that no byte is both 0 and negative. -/
theorem setZnWritesBothFlags : Obligations.SetZnWritesBothFlags :=
  fun p r => ⟨flagsOf_withZN p r, withZN_reserved p r, withZN_not_both p r⟩

end Sys2Proof.Claims

namespace Sys2Proof.Machine

/-- The address whose number is the next one modulo 65,536 is the model's next address (R43). -/
theorem eq_add_one_of_toNat {k hi : Addr} (h : hi.toNat = (k.toNat + 1) % 65536) : hi = k + 1 :=
  BitVec.eq_of_toNat_eq (h.trans (BitVec.toNat_add k 1).symm)

theorem ne_add_one (k : Addr) : k ≠ k + 1 := by bv_omega

namespace Memory

theorem readWord_toNat (m : Memory) (k : Addr) :
    (m.readWord k).toNat = (m.read k).toNat + 256 * (m.read (k + 1)).toNat := wordOf_toNat _ _

/-- The low byte of a word stands at its address: the high byte goes to another address, even at 0xFFFF (R44). -/
@[simp] theorem read_writeWord_low (m : Memory) (k w : Addr) : (m.writeWord k w).read k = lowByte w :=
  (read_write_other _ _ _ _ (ne_add_one k)).trans (read_write_same _ _ _)

theorem read_writeWord_high (m : Memory) (k w : Addr) : (m.writeWord k w).read (k + 1) = highByte w :=
  read_write_same _ _ _

theorem read_writeWord_other (m : Memory) (k w j : Addr) (hlow : j ≠ k) (hhigh : j ≠ k + 1) :
    (m.writeWord k w).read j = m.read j :=
  (read_write_other _ _ _ _ hhigh).trans (read_write_other _ _ _ _ hlow)

@[simp] theorem readWord_writeWord (m : Memory) (k w : Addr) : (m.writeWord k w).readWord k = w := by
  rw [readWord, read_writeWord_low, read_writeWord_high, wordOf_low_high]

end Memory

end Sys2Proof.Machine

namespace Sys2Proof.Claims

open Sys2Proof.Machine

/-- Settles O34: the two addresses given as numbers are the zero-extended pointer and its 8-bit successor. -/
theorem zeroPagePointerWraps : Obligations.ZeroPagePointerWraps := by
  intro m p lo hi hlo hhi
  have hlow : lo = zext16 p := BitVec.eq_of_toNat_eq (hlo.trans (zext16_toNat p).symm)
  have hhigh : hi = zext16 (p + 1) := by
    apply BitVec.eq_of_toNat_eq
    rw [zext16_toNat, hhi, BitVec.toNat_add]
    rfl
  rw [hlow, hhigh]
  exact zpRead16_toNat m p

/-- Settles O35: what a word read is as a number, and what a word write does to the read of each address. -/
theorem wordAccessorsRoundTrip : Obligations.WordAccessorsRoundTrip := by
  intro m k w hi hhi
  obtain rfl := eq_add_one_of_toNat hhi
  refine ⟨Memory.readWord_toNat m k, ?low, ?high, Memory.readWord_writeWord m k w, Memory.read_writeWord_other m k w⟩
  case low => rw [Memory.read_writeWord_low, lowByte_toNat]
  case high => rw [Memory.read_writeWord_high, highByte_toNat]

end Sys2Proof.Claims

namespace Sys2Proof.Machine

theorem eaIndirectY_toNat (b : Byte) (s : State) :
    (eaIndirectY b s).toNat = ((s.mem.zpRead16 b).toNat + s.y.toNat) % 65536 := by
  rw [eaIndirectY, BitVec.toNat_add, zext16_toNat]

end Sys2Proof.Machine

namespace Sys2Proof.Claims

open Sys2Proof.Machine

/-- The resolver's advance, by the two columns of R81. -/
theorem pcMoved_advancePc_consumed (s : State) (m : Mode) :
    PcMoved s (s.advancePc (consumed s.pcSeq m)) (consumed .hardware m) (consumed .sourceCompat m) := by
  unfold PcMoved
  cases s.pcSeq <;> simp

theorem sameButPc_advancePc (s : State) (n : Nat) : SameButPc s (s.advancePc n) :=
  ⟨rfl, rfl, rfl, rfl, rfl, rfl, fun _ => rfl⟩

/-- Whatever mode is resolved, PC moves by the mode's count and nothing else changes (40_addressing_modes.md R81, R93).
What is left to say of a mode is its effective address, given here as a number. -/
theorem resolve_ea_and_frame {m : Mode} {s t : State} {ea : Addr} {v : Nat} (hres : resolve m s = some (ea, t))
    (hea : ea.toNat = v) :
    ∃ ea t, resolve m s = some (ea, t) ∧ ea.toNat = v ∧
      PcMoved s t (consumed .hardware m) (consumed .sourceCompat m) ∧ SameButPc s t := by
  refine ⟨ea, t, hres, hea, ?_⟩
  rw [resolve_state hres]
  exact ⟨pcMoved_advancePc_consumed s m, sameButPc_advancePc s _⟩

/-- Settles O31: the zero-extended operand byte and the little-endian word at PC, as numbers. -/
theorem directModesResolve : Obligations.DirectModesResolve := fun s =>
  ⟨resolve_ea_and_frame rfl (eaZeroPage_toNat _),
   resolve_ea_and_frame rfl (Memory.readWord_toNat s.mem s.pc)⟩

/-- Settles O32: the zero-page sums are 8-bit and the absolute ones 16-bit, with the word at PC as a number. -/
theorem indexedModesResolve : Obligations.IndexedModesResolve := by
  intro s
  have hword := Memory.readWord_toNat s.mem s.pc
  exact
    ⟨resolve_ea_and_frame rfl (eaZeroPageX_toNat _ s),
     resolve_ea_and_frame rfl (eaZeroPageY_toNat _ s),
     resolve_ea_and_frame rfl (hword ▸ eaAbsoluteX_toNat _ s),
     resolve_ea_and_frame rfl (hword ▸ eaAbsoluteY_toNat _ s)⟩

/-- Settles O33: the word at the zero-page pointer (R45), which for Indirect,X is the 8-bit sum and for Indirect,Y the
operand byte itself, Y being added to the word. -/
theorem indirectModesResolve : Obligations.IndirectModesResolve := by
  intro s lo hi
  constructor
  · intro hlo hhi
    have hsum := BitVec.toNat_add (s.mem.read s.pc) s.x
    refine resolve_ea_and_frame rfl (zeroPagePointerWraps s.mem (s.mem.read s.pc + s.x) lo hi ?low ?high)
    case low => rw [hlo, hsum]
    case high => rw [hhi, hsum, Nat.mod_add_mod]
  · intro hlo hhi
    have hpointer := zeroPagePointerWraps s.mem (s.mem.read s.pc) lo hi hlo hhi
    exact resolve_ea_and_frame rfl (hpointer ▸ eaIndirectY_toNat _ s)

end Sys2Proof.Claims

namespace Sys2Proof

/-- A raw instruction's instruction has that raw form: the converse of `toInstr_raw`. -/
theorem raw_of_toInstr {r : RawInstr} {i : Instr} (hi : r.toInstr = some i) : i.raw = r := by
  obtain ⟨h, m, o⟩ := r
  rcases h with _ | op | op
  · cases m <;> cases o <;> cases hi
    rfl
  · cases m <;> cases o <;> cases hi
    cases op <;> rfl
  · cases op <;> cases m <;> cases o <;> cases hi <;> rfl

end Sys2Proof

namespace Sys2Proof.Machine

/-- The operand of `i` is what memory holds from PC up, as it is in the state after the opcode fetch (R64). -/
def OperandAtPc (i : Instr) (s : State) : Prop :=
  ∃ rest, takeOperand i.raw.mode.format [s.readByte s.pc, s.readByte (s.pc + 1)] = some (i.raw.operand, rest)

/-- What a running core does, told by its opcode byte: without a row it raises, and with one it runs an instruction of
that row whose operand memory holds after the opcode (R64, R103, R104). -/
theorem step_by_opcode {s : State} (hr : s.run = .running) :
    (decodeOpcode (s.readByte s.pc) = none ∧ step s = .next (s.raise .unimplementedOpcode (s.readByte s.pc))) ∨
    ∃ i, decodeOpcode (s.readByte s.pc) = some (i.raw.handler, i.raw.mode) ∧ OperandAtPc i s.pastOpcode ∧
      step s = exec i s.pastOpcode := by
  rcases decode_instrBytes s with ⟨hrow, -⟩ | ⟨h, m, o, rest, i, hrow, htake, hi, hd⟩
  · exact .inl ⟨hrow, step_of_unimplemented hr hrow⟩
  · have hraw : i.raw = ⟨h, m, o⟩ := raw_of_toInstr hi
    refine .inr ⟨i, by rw [hraw, hrow], ⟨rest, ?_⟩, step_of_decode hr hd⟩
    rw [hraw]
    exact htake

/-- The pseudocode's `PC <- PC +16 1` is the fetch's advance (R102). -/
theorem State.setPc_add_one (s : State) : s.setPc (s.pc + 1) = s.pastOpcode := rfl

namespace Reference

/-- `Execute` neither reads nor writes PC, so it may come before the resolver's advance as well as after it. -/
theorem execute_advancePc (s : State) (n : Nat) (ea : Addr) (op : AddressedOp) :
    execute (s.advancePc n) ea op = (execute s ea op).advancePc n := by
  cases op <;> rfl

@[simp] theorem execute_pcSeq (s : State) (ea : Addr) (op : AddressedOp) : (execute s ea op).pcSeq = s.pcSeq := by
  cases op <;> rfl

theorem step_of_none {map : Byte → Option (Handler × Mode)} {s : State} (hrow : map (s.readByte s.pc) = none) :
    step map s = s.raise .unimplementedOpcode (s.readByte s.pc) := by
  simp [step, hrow]

theorem step_of_brk {map : Byte → Option (Handler × Mode)} {s : State} {m : Mode}
    (hrow : map (s.readByte s.pc) = some (.brk, m)) : step map s = s.pastOpcode.halt := by
  simp only [step, hrow, State.setPc_add_one]

theorem step_of_implied {map : Byte → Option (Handler × Mode)} {s : State} {op : ImpliedOp} {m : Mode}
    (hrow : map (s.readByte s.pc) = some (.implied op, m)) : step map s = implied s.pastOpcode op := by
  simp only [step, hrow, State.setPc_add_one]

/-- The pseudocode of an addressed instruction whose mode resolves, with both advances of PC brought to the end. -/
theorem step_of_addressed {map : Byte → Option (Handler × Mode)} {s t : State} {op : AddressedOp} {m : Mode} {ea : Addr}
    (hrow : map (s.readByte s.pc) = some (.addressed op, m)) (hres : resolve m s.pastOpcode = some (ea, t)) :
    step map s = (execute s.pastOpcode ea op).finish m := by
  have hstep : step map s = (execute t ea op).trailingAdvance := by
    simp only [step, hrow, State.setPc_add_one, hres]
  rw [hstep, resolve_state hres, execute_advancePc, State.finish, execute_pcSeq]

end Reference

/-- BRK, the one instruction of its handler, halts (R180). -/
theorem exec_eq_halt {i : Instr} (s : State) (hi : i.raw.handler = .brk) : exec i s = .next s.halt := by
  cases i <;> cases hi
  rfl

/-- An implied instruction means what the pseudocode's `Implied` says of its handler (R120 to R127). -/
theorem exec_eq_implied {i : Instr} {op : ImpliedOp} (s : State) (hi : i.raw.handler = .implied op) :
    exec i s = .next (Reference.implied s op) := by
  cases i <;> cases hi <;> rfl

/-- An addressed instruction whose operand memory holds at PC means `Execute` at the address that the resolver reads
there, then the advance of its mode (R106, R140 to R143). -/
theorem exec_eq_execute {i : Instr} {op : AddressedOp} {s : State} (hi : i.raw.handler = .addressed op)
    (ho : OperandAtPc i s) :
    ∃ ea t, resolve i.raw.mode s = some (ea, t) ∧ exec i s = .next ((Reference.execute s ea op).finish i.raw.mode) := by
  obtain ⟨rest, htake⟩ := ho
  cases i
  case brk | tax | txa | dex | inx | tay | tya | dey | iny => cases hi
  all_goals
    cases hi
    cases htake
    exact ⟨_, _, rfl, rfl⟩

/-- An instruction run after its opcode gives the state of the pseudocode, by the families of handlers (R103). -/
theorem exec_eq_reference {i : Instr} {s : State}
    (hrow : decodeOpcode (s.readByte s.pc) = some (i.raw.handler, i.raw.mode)) (ho : OperandAtPc i s.pastOpcode) :
    exec i s.pastOpcode = .next (Reference.step decodeOpcode s) := by
  cases hi : i.raw.handler with
  | brk =>
    rw [hi] at hrow
    rw [Reference.step_of_brk hrow, exec_eq_halt _ hi]
  | implied op =>
    rw [hi] at hrow
    rw [Reference.step_of_implied hrow, exec_eq_implied _ hi]
  | addressed op =>
    rw [hi] at hrow
    obtain ⟨ea, t, hres, hexec⟩ := exec_eq_execute hi ho
    rw [Reference.step_of_addressed hrow hres, hexec]

end Sys2Proof.Machine

namespace Sys2Proof.Claims

open Sys2Proof.Machine

/-- Settles O9: both steps raise on an opcode without a row, and on any other they run the row's instruction, whose
operand the pseudocode reads from memory and the decoder has read there. -/
theorem stepIsTheSpecsPseudocode : Obligations.StepIsTheSpecsPseudocode := by
  intro s hr
  rcases step_by_opcode hr with ⟨hrow, hstep⟩ | ⟨i, hrow, ho, hstep⟩
  · rw [hstep, Reference.step_of_none hrow]
  · rw [hstep, exec_eq_reference hrow ho]

end Sys2Proof.Claims

namespace Sys2Proof.Machine

/-- A run of the core begins with its first step. -/
theorem core_run_succ {s t : State} (h : step s = .next t) (n : Nat) : core.run (n + 1) s = core.run n t := by
  have hcore : core.step s = .next t := h
  simp only [Host.Core.run, hcore]

theorem RunsTo.refl (s : State) : RunsTo s s := ⟨0, rfl⟩

theorem RunsTo.head {s t u : State} (h : step s = .next t) (hrun : RunsTo t u) : RunsTo s u := by
  obtain ⟨n, hn⟩ := hrun
  exact ⟨n + 1, (core_run_succ h n).trans hn⟩

/-- Stepping under a budget leaves a stopped core as it is. -/
theorem runFor_of_stopped {s : State} (hs : s.run ≠ .running) (budget : Nat) : runFor budget s = .next s := by
  cases budget <;> simp [runFor, hs]

/-- Stepping a running core under a budget goes on from its next state with one step less. -/
theorem runFor_succ {s t : State} (hr : s.run = .running) (h : step s = .next t) (budget : Nat) :
    runFor (budget + 1) s = runFor budget t := by
  simp [runFor, hr, h]

/-- Stepping under a budget answers a state that steps reach, and one that is still Running only after all of the
budget's steps. -/
theorem runFor_reaches (budget : Nat) (s : State) :
    ∃ t, runFor budget s = .next t ∧ RunsTo s t ∧ (t.run = .running → core.run budget s = .next t) := by
  induction budget generalizing s with
  | zero => exact ⟨s, rfl, .refl s, fun _ => rfl⟩
  | succ n ih =>
    by_cases hr : s.run = .running
    · obtain ⟨u, hstep⟩ := step_isNext_of_running hr
      obtain ⟨t, hfor, hreach, hspent⟩ := ih u
      refine ⟨t, (runFor_succ hr hstep n).trans hfor, hreach.head hstep, fun ht => ?_⟩
      rw [core_run_succ hstep, hspent ht]
    · exact ⟨s, runFor_of_stopped hr _, .refl s, fun ht => absurd ht hr⟩

/-- After a load that answers, `run` steps from the state after the reset (R234). -/
theorem runImage_of_load {s u : State} {img : List Byte} (hload : s.hostLoad img = .next u) (budget : Nat) :
    runImage budget img s = runFor budget u.hostReset := by
  simp [runImage, hload]

end Sys2Proof.Machine

namespace Sys2Proof.Claims

open Sys2Proof.Machine

/-- Settles O48: what stepping under a budget reaches, from the state after the load and the reset. -/
theorem runStepsUntilNotRunning : Obligations.RunStepsUntilNotRunning := by
  intro s u img budget hload
  rw [runImage_of_load hload]
  exact runFor_reaches budget u.hostReset

end Sys2Proof.Claims

namespace Sys2Proof.Claims

open Sys2Proof.Machine

/-- A running core over the opcode byte of an implied instruction runs that instruction (R103, R105). -/
theorem step_of_ready_implied {s : State} {i : Instr} {op : ImpliedOp} (hi : i.raw.handler = .implied op)
    (hready : Ready s [i.opcode]) : step s = exec i s.pastOpcode := by
  obtain ⟨hr, hbytes⟩ := hready
  have hbyte : s.readByte s.pc = i.opcode := by simpa [bytesAt, State.readByte] using hbytes
  have hrow : decodeOpcode (s.readByte s.pc) = some (.implied op, i.raw.mode) := by
    rw [hbyte, decodeOpcode_opcode, hi]
  rw [stepIsTheSpecsPseudocode s hr, Reference.step_of_implied hrow, exec_eq_implied _ hi]

/-- The fetch's advance is one byte under both values of PC_SEQ (R102, R105). -/
theorem pcMoved_one_of_pc {s t : State} (ht : t.pc = s.pastOpcode.pc) : PcMoved s t 1 1 := by
  unfold PcMoved
  rw [ht, State.pastOpcode, State.advancePc_pc]
  cases s.pcSeq <;> simp

theorem afterResultX_resultX (s : State) (v : Byte) : AfterResultX s (s.resultX v) v :=
  ⟨rfl, flagsOf_withZN s.p v, rfl, rfl, rfl, rfl, fun _ => rfl⟩

/-- The fetch changes PC alone, so a result written to X after it is framed by the state before it. -/
theorem afterResultX_pastOpcode (s : State) (v : Byte) : AfterResultX s (s.pastOpcode.resultX v) v :=
  afterResultX_resultX s.pastOpcode v

/-- Settles O18: both instructions write their byte to X with its flags, and a step over their opcode runs them after
the fetch. -/
theorem taxAndInxFollowTheSource : Obligations.TaxAndInxFollowTheSource := by
  intro s
  have hinc : (s.x + 1).toNat = (s.x.toNat + 1) % 256 := BitVec.toNat_add s.x 1
  refine ⟨⟨_, rfl, afterResultX_resultX s s.a, rfl⟩, ⟨_, rfl, hinc, afterResultX_resultX s (s.x + 1), rfl⟩, ?tax, ?inx⟩
  case tax =>
    intro hready
    have hstep : step s = exec .tax s.pastOpcode := step_of_ready_implied rfl hready
    exact ⟨_, hstep, afterResultX_pastOpcode s s.a, pcMoved_one_of_pc rfl⟩
  case inx =>
    intro hready
    have hstep : step s = exec .inx s.pastOpcode := step_of_ready_implied rfl hready
    exact ⟨_, hstep, hinc, afterResultX_pastOpcode s (s.x + 1), pcMoved_one_of_pc rfl⟩

end Sys2Proof.Claims

namespace Sys2Proof

/-- Decoding an encoding gives the instruction back, whatever follows: its opcode has its row, its operand bytes are
taken back, and the raw instruction made of both is its own. -/
theorem decode_encode (i : Instr) (rest : List Byte) : decode (encode i ++ rest) = .instr i rest := by
  have hraw : RawInstr.toInstr ⟨i.raw.handler, i.raw.mode, i.raw.operand⟩ = some i := toInstr_raw i
  rw [encode, List.cons_append, decode_cons _ (decodeOpcode_opcode i), decodeDescriptor, lacksOperandMode_raw,
    takeOperand_bytes]
  simp [hraw]

/-- No encoding is longer than the three bytes of a fetch (R67). -/
theorem encode_length_le_three (i : Instr) : (encode i).length ≤ 3 := by
  rw [encode]
  cases i.raw.operand <;> simp [Operand.bytes]

/-- A raw instruction that is not well formed has no instruction (R71). -/
theorem toInstr_eq_none_of_not_wellFormed {r : RawInstr} (hr : r.wellFormed = false) : r.toInstr = none := by
  simpa [hr] using toInstr_isSome r

end Sys2Proof

namespace Sys2Proof.Claims

open Sys2Proof.Machine

/-- `Execute(LDA, ea)` and its PC sequencing leave the result of the byte loaded (R140). -/
theorem afterResultA_load (s : State) (v : Byte) (m : Mode) : AfterResultA s (s.load v m) v :=
  ⟨rfl, flagsOf_withZN s.p v, rfl, rfl, rfl, rfl, fun _ => rfl⟩

/-- Settles O21: every form loads the byte that its mode addresses, and a load of any byte writes A and its flags
alone but for PC. -/
theorem ldaFormsComplete : Obligations.LdaFormsComplete := fun s =>
  ⟨fun b => ⟨_, rfl, afterResultA_load s b .immediate⟩,
   fun b => ⟨_, rfl, afterResultA_load s (s.readByte (eaZeroPage b)) .zeroPage⟩,
   fun b => ⟨_, rfl, afterResultA_load s (s.readByte (eaZeroPageX b s)) .zeroPageX⟩,
   fun w => ⟨_, rfl, afterResultA_load s (s.readByte (eaAbsolute w)) .absolute⟩,
   fun w => ⟨_, rfl, afterResultA_load s (s.readByte (eaAbsoluteX w s)) .absoluteX⟩,
   fun w => ⟨_, rfl, afterResultA_load s (s.readByte (eaAbsoluteY w s)) .absoluteY⟩,
   fun b => ⟨_, rfl, afterResultA_load s (s.readByte (eaIndirectX b s)) .indirectX⟩,
   fun b => ⟨_, rfl, afterResultA_load s (s.readByte (eaIndirectY b s)) .indirectY⟩⟩

/-- `Execute(STA, ea)` and its PC sequencing write A at the address and nothing else but PC (R141). -/
theorem afterStore_store (s : State) (ea : Addr) (m : Mode) : AfterStore s (s.store ea m) ea :=
  ⟨Memory.read_write_same s.mem ea s.a, Memory.read_write_other s.mem ea s.a, rfl, rfl, rfl, rfl, rfl, rfl⟩

/-- Settles O24: every form stores A at the address of its mode, and STA with an Immediate operand is not well
formed. -/
theorem staFormsComplete : Obligations.StaFormsComplete := fun s =>
  ⟨fun b => ⟨_, rfl, afterStore_store s (eaZeroPage b) .zeroPage⟩,
   fun b => ⟨_, rfl, afterStore_store s (eaZeroPageX b s) .zeroPageX⟩,
   fun w => ⟨_, rfl, afterStore_store s (eaAbsolute w) .absolute⟩,
   fun w => ⟨_, rfl, afterStore_store s (eaAbsoluteX w s) .absoluteX⟩,
   fun w => ⟨_, rfl, afterStore_store s (eaAbsoluteY w s) .absoluteY⟩,
   fun b => ⟨_, rfl, afterStore_store s (eaIndirectX b s) .indirectX⟩,
   fun b => ⟨_, rfl, afterStore_store s (eaIndirectY b s) .indirectY⟩,
   fun _ => toInstr_eq_none_of_not_wellFormed rfl⟩

/-- The bytes read from an address begin with the bytes that stand there. -/
theorem readBytes_of_bytesAt {m : Memory} {k : Addr} {bytes : List Byte} (h : bytesAt m k bytes = true) {n : Nat}
    (hn : bytes.length ≤ n) : ∃ rest, m.readBytes k n = bytes ++ rest := by
  induction bytes generalizing k n with
  | nil => exact ⟨_, rfl⟩
  | cons b bytes ih =>
    obtain ⟨n, rfl⟩ := Nat.exists_eq_add_of_le' (Nat.le_trans (Nat.le_add_left 1 _) hn)
    obtain ⟨hb, hbytes⟩ : m.read k = b ∧ bytesAt m (k + 1) bytes = true := by simpa [bytesAt] using h
    obtain ⟨rest, hrest⟩ := ih hbytes (Nat.le_of_succ_le_succ hn)
    exact ⟨rest, by rw [Memory.readBytes, hb, hrest, List.cons_append]⟩

/-- A running core over the encoding of an instruction runs it in the state past the opcode (R102, R103). -/
theorem step_of_ready_encode {s : State} {i : Instr} (hready : Ready s (encode i)) : step s = exec i s.pastOpcode := by
  obtain ⟨hr, hbytes⟩ := hready
  obtain ⟨rest, hrest⟩ := readBytes_of_bytesAt hbytes (encode_length_le_three i)
  have hd : decode s.instrBytes = .instr i rest := by rw [State.instrBytes, hrest, decode_encode]
  exact step_of_decode hr hd

/-- How far PC moves over an addressed instruction: by the fetch, the resolver's count of the mode and the trailing
advance (R102, R81, R107), if the instruction's effect `u` moves it no further. -/
theorem pcMoved_finish {s u : State} (hpc : u.pc = s.pastOpcode.pc) (hseq : u.pcSeq = s.pcSeq) (m : Mode) :
    PcMoved s (u.finish m) (1 + consumed .hardware m + trailing .hardware)
      (1 + consumed .sourceCompat m + trailing .sourceCompat) := by
  unfold PcMoved
  rw [State.finish_pc, hpc, hseq, State.pastOpcode, State.advancePc_pc]
  cases s.pcSeq <;> simp [Nat.add_assoc]

/-- Settles O22: the step runs the load of the operand byte after the fetch, and under either value of PC_SEQ one of
the resolver and the trailing advance moves PC past that byte. -/
theorem ldaImmediateStepLoadsItsOperand : Obligations.LdaImmediateStepLoadsItsOperand := by
  intro s v hready
  have hstep : step s = exec (.ldaImm v) s.pastOpcode := step_of_ready_encode hready
  exact ⟨_, hstep, afterResultA_load s.pastOpcode v .immediate, pcMoved_finish rfl rfl .immediate⟩

end Sys2Proof.Claims

namespace Sys2Proof.Claims

open Sys2Proof.Machine

/-- An instruction run in a running state leaves no fault record: it keeps the run state or halts (R35, R203). -/
theorem exec_run_ne_faulted {i : Instr} {s t : State} (hr : s.run = .running) (h : exec i s = .next t)
    (kind : FaultKind) (op : Byte) (pc : Addr) : t.run ≠ .faulted kind op pc := by
  rcases exec_run h with hkept | ⟨-, hhalted⟩
  · simp [hkept, hr]
  · simp [hhalted]

/-- Settles O12: a step over an encoding runs its instruction, whose meaning answers a next state from every state and
never records a fault; no operand, register or address is restricted, so none of them can wrap into one. -/
theorem noImplementedInstructionFaults : Obligations.NoImplementedInstructionFaults := by
  intro s i hready
  have hr : s.pastOpcode.run = .running := (State.pastOpcode_run s).trans hready.left
  obtain ⟨t, hexec⟩ := exec_isNext i s.pastOpcode
  have hstep : step s = .next t := (step_of_ready_encode hready).trans hexec
  exact ⟨t, hstep, exec_run_ne_faulted hr hexec⟩

end Sys2Proof.Claims

namespace Sys2Proof

open Sys2Proof.Machine

/-- The opcode map answers with a row of the table. -/
theorem mem_opcodeTable_of_decodeOpcode {op : Byte} {h : Handler} {m : Mode} (e : decodeOpcode op = some (h, m)) :
    ⟨op, h, m⟩ ∈ opcodeTable := by
  obtain ⟨row, hfind, hrow⟩ := Option.map_eq_some_iff.1 e
  have hop : row.opcode = op := by simpa using List.find?_some hfind
  obtain ⟨rfl, rfl⟩ := Prod.mk.inj hrow
  exact hop ▸ List.mem_of_find?_eq_some hfind

/-- No two rows of the table share a handler and a mode (R66). -/
theorem opcodeTable_descriptors_nodup : (opcodeTable.map (fun r => (r.handler, r.mode))).Nodup := by decide

/-- The opcode that the map gives an instruction's row is the instruction's. -/
theorem opcode_of_decodeOpcode {op : Byte} {i : Instr} (e : decodeOpcode op = some (i.raw.handler, i.raw.mode)) :
    op = i.opcode := by
  have hrow := List.inj_on_of_nodup_map opcodeTable_descriptors_nodup (mem_opcodeTable_of_decodeOpcode e)
    (mem_opcodeTable_of_decodeOpcode (decodeOpcode_opcode i)) rfl
  exact congrArg OpcodeRow.opcode hrow

/-- The operand taken is made of the bytes it was taken from (R61 to R64). -/
theorem eq_bytes_append_of_takeOperand {f : Format} {bytes rest : List Byte} {o : Operand}
    (h : takeOperand f bytes = some (o, rest)) : bytes = o.bytes ++ rest := by
  unfold takeOperand at h
  split at h <;> cases h
  · rfl
  · rfl
  · simp [Operand.bytes]

/-- Bytes decode to an instruction only by a row of the map and an operand taken after the opcode (R60, R67). -/
theorem decode_eq_instr {bytes rest : List Byte} {i : Instr} (h : decode bytes = .instr i rest) :
    ∃ op tail, bytes = op :: tail ∧ decodeOpcode op = some (i.raw.handler, i.raw.mode) ∧
      takeOperand i.raw.mode.format tail = some (i.raw.operand, rest) := by
  cases bytes with
  | nil => cases h
  | cons op tail =>
    refine ⟨op, tail, rfl, ?_⟩
    cases e : decodeOpcode op with
    | none => rw [decode_cons_none _ e] at h; cases h
    | some d =>
      obtain ⟨hd, m⟩ := d
      rcases decode_of_row tail e with ⟨-, htrunc⟩ | ⟨o, rest', j, htake, hj, hinstr⟩
      · rw [htrunc] at h; cases h
      · rw [hinstr] at h
        cases h
        rw [raw_of_toInstr hj]
        exact ⟨rfl, htake⟩

/-- Bytes that decode to an instruction are its encoding and what follows it. -/
theorem eq_encode_append_of_decode {bytes rest : List Byte} {i : Instr} (h : decode bytes = .instr i rest) :
    bytes = encode i ++ rest := by
  obtain ⟨op, tail, rfl, hrow, htake⟩ := decode_eq_instr h
  rw [opcode_of_decodeOpcode hrow, eq_bytes_append_of_takeOperand htake]
  rfl

end Sys2Proof

namespace Sys2Proof.Claims

open Sys2Proof.Machine

/-- Settles O2: the opcode finds its row, and the operand bytes are taken back whatever follows. -/
theorem decodeOfEncodeIsTheInstruction : Obligations.DecodeOfEncodeIsTheInstruction := decode_encode

/-- Settles O3: no two rows share a handler and a mode, so the opcode is the instruction's, and the operand taken is
the bytes after it. -/
theorem decodedBytesAreTheEncoding : Obligations.DecodedBytesAreTheEncoding :=
  fun _ _ _ => eq_encode_append_of_decode

/-- Settles O1: each word evaluated by the decoder. -/
theorem writtenOutWordsDecode : Obligations.WrittenOutWordsDecode := by
  unfold Obligations.WrittenOutWordsDecode
  decide

/-- The opcodes without a row are those outside the 32 values (R66, R68). -/
theorem decodeOpcode_eq_none_iff {op : Byte} : decodeOpcode op = none ↔ op ∉ opcodeValues := by
  have hvalues : opcodeValues = opcodeTable.map OpcodeRow.opcode := rfl
  simp [decodeOpcode, hvalues]

/-- Settles O4: an opcode without a row is rejected whatever follows, and one with a row is read or its bytes run
out. -/
theorem opcodeByteAloneRejects : Obligations.OpcodeByteAloneRejects := by
  intro op bytes
  rw [← decodeOpcode_eq_none_iff]
  constructor
  · intro hreject
    cases e : decodeOpcode op with
    | none => rfl
    | some d =>
      rcases decode_of_row bytes e with ⟨-, htrunc⟩ | ⟨o, rest, i, -, -, hinstr⟩
      · rw [htrunc] at hreject; cases hreject
      · rw [hinstr] at hreject; cases hreject
  · exact decode_cons_none bytes

/-- Settles O5: a raw instruction has an instruction exactly when it is well formed, and then it is that one's raw
form. -/
theorem onlyTableRowsAreInstructions : Obligations.OnlyTableRowsAreInstructions := by
  intro r
  refine ⟨fun hwf => ?_, toInstr_eq_none_of_not_wellFormed⟩
  obtain ⟨i, hi⟩ := Option.isSome_iff_exists.1 ((toInstr_isSome r).trans hwf)
  exact ⟨i, hi, raw_of_toInstr hi⟩

end Sys2Proof.Claims

namespace Sys2Proof.Machine.Memory

/-- A cell listed among rising keys is found. -/
theorem lookup_of_mem {m : Memory} (hm : m.Pairwise (fun c d => c.1 < d.1)) {c : Host.Cell} (hc : c ∈ m) :
    lookup m c.1 = c.2 := by
  induction m with
  | nil => simp at hc
  | cons d m ih =>
    obtain ⟨hhead, htail⟩ := List.pairwise_cons.1 hm
    rw [lookup_cons]
    rcases List.mem_cons.1 hc with rfl | hc
    · simp
    · rw [if_pos (hhead c hc), ih htail hc]

/-- A key that does not read as unlisted is listed, in any list. -/
theorem mem_of_lookup_ne {m : Memory} {k : Nat} (h : lookup m k ≠ unlisted k) : (k, lookup m k) ∈ m := by
  induction m with
  | nil => exact absurd rfl h
  | cons d m ih =>
    obtain ⟨j, b⟩ := d
    rw [lookup_cons] at h ⊢
    rcases Nat.lt_trichotomy j k with hlt | rfl | hgt
    · rw [if_pos hlt] at h ⊢
      exact List.mem_cons_of_mem _ (ih h)
    · simp
    · simp [Nat.lt_asymm hgt, Nat.ne_of_gt hgt] at h

/-- The cells of a canonical memory are what reads other than as an unlisted address. -/
theorem mem_iff_lookup {m : Memory} (hm : m.wf) {c : Host.Cell} : c ∈ m ↔ lookup m c.1 = c.2 ∧ c.2 ≠ unlisted c.1 := by
  constructor
  · exact fun hc => ⟨lookup_of_mem hm.1 hc, (hm.2 c hc).2⟩
  · rintro ⟨hlook, hne⟩
    have hmem := mem_of_lookup_ne (hlook.trans_ne hne)
    rwa [hlook] at hmem

theorem lookup_eq_read (m : Memory) {k : Nat} (hk : k < Config.memorySize) : lookup m k = m.read (BitVec.ofNat 16 k) := by
  rw [read, BitVec.toNat_ofNat, Nat.mod_eq_of_lt (by exact hk)]

theorem mem_of_reads_alike {m n : Memory} (hm : m.wf) (hn : n.wf) (h : ∀ k : Addr, m.read k = n.read k) {c : Host.Cell}
    (hc : c ∈ m) : c ∈ n := by
  have hkey : c.1 < Config.memorySize := (hm.2 c hc).1
  rw [mem_iff_lookup hm, lookup_eq_read m hkey, h, ← lookup_eq_read n hkey] at hc
  exact (mem_iff_lookup hn).2 hc

/-- Canonical memories are extensional: both list what reads other than as unlisted, in rising order. -/
theorem eq_of_reads_alike {m n : Memory} (hm : m.wf) (hn : n.wf) (h : ∀ k : Addr, m.read k = n.read k) : m = n := by
  have : Std.Antisymm (fun c d : Host.Cell => c.1 < d.1) := ⟨fun _ _ h h' => absurd h' (Nat.lt_asymm h)⟩
  have : Std.Irrefl (fun c d : Host.Cell => c.1 < d.1) := ⟨fun c => Nat.lt_irrefl c.1⟩
  exact hm.1.eq_of_mem_iff hn.1
    (fun _ => ⟨mem_of_reads_alike hm hn h, mem_of_reads_alike hn hm fun k => (h k).symm⟩)

theorem add_ofNat_succ (a : Addr) (i : Nat) : a + BitVec.ofNat 16 (i + 1) = a + 1 + BitVec.ofNat 16 i := by
  apply BitVec.eq_of_toNat_eq
  simp
  omega

theorem ne_add_one_add_ofNat (a : Addr) {i : Nat} (hi : i + 1 < 65536) : a ≠ a + 1 + BitVec.ofNat 16 i := by
  intro h
  have hnat := congrArg BitVec.toNat h
  have hone : (1 : Addr).toNat = 1 := rfl
  rw [BitVec.toNat_add, BitVec.toNat_add, BitVec.toNat_ofNat, hone] at hnat
  omega

/-- The first of some bytes written stays: those after it go to other addresses, as long as they do not come round. -/
theorem read_writeBytes_first (m : Memory) (a : Addr) (b : Byte) {bytes : List Byte} (hlen : bytes.length < 65536) :
    (m.writeBytes a (b :: bytes)).read a = b := by
  rw [writeBytes, read_writeBytes_outside _ _ _ _ fun i hi => ne_add_one_add_ofNat a (by omega)]
  exact read_write_same m a b

/-- Bytes written one after another read back, as long as they do not come round the address space (R232). -/
theorem read_writeBytes_inside (m : Memory) (a : Addr) {bytes : List Byte} (hlen : bytes.length ≤ 65536) {i : Nat}
    (hi : i < bytes.length) : (m.writeBytes a bytes).read (a + BitVec.ofNat 16 i) = bytes[i] := by
  induction bytes generalizing m a i with
  | nil => simp at hi
  | cons b bytes ih =>
    cases i with
    | zero => simpa using read_writeBytes_first m a b hlen
    | succ i =>
      rw [add_ofNat_succ, writeBytes]
      exact ih _ _ (Nat.le_of_succ_le hlen) (Nat.lt_of_succ_lt_succ hi)

/-- The memory of a MEM_INIT: its bytes written from address 0 up (20_memory.md R59). -/
def ofImage (f : Addr → Byte) : Memory :=
  writeBytes [] 0 ((List.range Config.memorySize).map fun k => f (BitVec.ofNat 16 k))

theorem ofImage_wf (f : Addr → Byte) : (ofImage f).wf := writeBytes_wf _ _ wf_nil

@[simp] theorem read_ofImage (f : Addr → Byte) (k : Addr) : (ofImage f).read k = f k := by
  have hlen : ((List.range Config.memorySize).map fun k => f (BitVec.ofNat 16 k)).length = 65536 := by
    rw [List.length_map, List.length_range, Config.memorySize]
  have hread := read_writeBytes_inside [] 0 (le_of_eq hlen) (i := k.toNat) (hlen ▸ k.isLt)
  simpa [ofImage] using hread

end Sys2Proof.Machine.Memory

namespace Sys2Proof.Claims

open Sys2Proof.Machine

/-- Settles O36: equal reads give the same cells, and the rising order leaves one list of them. -/
theorem canonicalMemoriesAreTheirReads : Obligations.CanonicalMemoriesAreTheirReads :=
  fun _ _ => Memory.eq_of_reads_alike

/-- Settles O37: all 65,536 bytes written one after another into the memory that lists none. -/
theorem everyInitialImageIsAMemory : Obligations.EveryInitialImageIsAMemory :=
  fun f => ⟨Memory.ofImage f, Memory.ofImage_wf f, Memory.read_ofImage f⟩

end Sys2Proof.Claims

namespace Sys2Proof.Claims

open Sys2Proof.Machine

theorem eq_setP_of_sameButP {s s' : State} (h : SameButP s s') : s' = s.setP s'.p := by
  obtain ⟨ha, hx, hy, hpc, hmem, hrun, hseq⟩ := h
  cases s
  cases s'
  simp only at ha hx hy hpc hmem hrun hseq
  subst ha hx hy hpc hmem hrun hseq
  rfl

theorem sameButP_setP (s : State) (v : Byte) : SameButP s (s.setP v) := ⟨rfl, rfl, rfl, rfl, rfl, rfl, rfl⟩

/-- P goes from `p` to `q` in one state and from `p'` to `q'` in another: both kept, or both SetZN of the same byte
(R31). -/
def PKeptOrResult (p p' q q' : Byte) : Prop := (q = p ∧ q' = p') ∨ ∃ r, q = withZN p r ∧ q' = withZN p' r

/-- An instruction's meaning with another value in P: the same but for P, which is kept or SetZN of a byte that does
not depend on it (R31). BRK and STA keep P. -/
theorem exec_setP {i : Instr} {s t : State} (h : exec i s = .next t) (v : Byte) :
    ∃ q, exec i (s.setP v) = .next (t.setP q) ∧ PKeptOrResult s.p v t.p q := by
  cases i <;> cases h
  case brk | staZp | staZpX | staAbs | staAbsX | staAbsY | staIndX | staIndY => exact ⟨v, rfl, .inl ⟨rfl, rfl⟩⟩
  all_goals exact ⟨_, rfl, .inr ⟨_, rfl, rfl⟩⟩

/-- A step with another value in P: the same fetch and decoding, and so the same fault or the same instruction. -/
theorem step_setP {s t : State} (h : step s = .next t) (v : Byte) :
    ∃ q, step (s.setP v) = .next (t.setP q) ∧ PKeptOrResult s.p v t.p q := by
  obtain ⟨hr, ⟨hrow, rfl⟩ | ⟨i, rest, hd, hexec⟩⟩ := step_cases h
  · have hstep : step (s.setP v) = _ := step_of_unimplemented hr hrow
    exact ⟨v, hstep, .inl ⟨rfl, rfl⟩⟩
  · have hstep : step (s.setP v) = exec i (s.setP v).pastOpcode := step_of_decode hr hd
    obtain ⟨q, hq, hp⟩ := exec_setP hexec v
    exact ⟨q, hstep.trans hq, hp⟩

/-- Settles O39: the other state is the first with its own P, and a step takes each P to itself or to SetZN of one
byte. -/
theorem noStepReadsTheFlags : Obligations.NoStepReadsTheFlags := by
  intro s s' t hsame hstep
  obtain ⟨q, hstep', hp⟩ := step_setP hstep s'.p
  rw [← eq_setP_of_sameButP hsame] at hstep'
  refine ⟨t.setP q, hstep', sameButP_setP t q, ?_⟩
  rw [State.setP_p]
  rcases hp with hkept | ⟨r, hp, hq⟩
  · exact .inl hkept
  · obtain ⟨hz, hn, hreserved⟩ := flagsOf_withZN s.p r
    obtain ⟨hz', hn', hreserved'⟩ := flagsOf_withZN s'.p r
    rw [hp, hq]
    exact .inr ⟨hz.trans hz'.symm, hn.trans hn'.symm, fun i h1 h7 => ⟨hreserved i h1 h7, hreserved' i h1 h7⟩⟩

end Sys2Proof.Claims

namespace Sys2Proof.Machine

theorem recordTrue_of_ne_faulted {s : State} (h : ∀ kind op pc, s.run ≠ .faulted kind op pc) : s.recordTrue = true := by
  unfold State.recordTrue
  split
  · next hrun => exact absurd hrun (h _ _ _)
  · rfl

/-- The record of an opcode without a row is true in the state that the fault leaves (R201, R206). -/
theorem recordTrue_raise {s : State} (hrow : decodeOpcode (s.readByte s.pc) = none) :
    (s.raise .unimplementedOpcode (s.readByte s.pc)).recordTrue = true := by
  simp [State.recordTrue, hrow]

/-- An instruction run in a running state keeps the invariant: the record part holds because it leaves no record. -/
theorem exec_inv {i : Instr} {s t : State} (hr : s.run = .running) (h : exec i s = .next t) (hinv : s.Inv) : t.Inv := by
  obtain ⟨hwf, hreserved, hnotBoth, -⟩ := hinv
  refine ⟨exec_wf h hwf, ?reserved, ?notBoth, recordTrue_of_ne_faulted (Claims.exec_run_ne_faulted hr h)⟩
  case reserved =>
    rcases exec_p h with hp | ⟨r, hp⟩
    · rw [hp, hreserved]
    · rw [hp, withZN_reserved, hreserved]
  case notBoth =>
    rcases exec_p h with hp | ⟨r, hp⟩
    · rwa [hp]
    · rw [hp]
      exact withZN_not_both s.p r

/-- The fetch touches nothing of what the invariant says of a running state. -/
theorem pastOpcode_inv {s : State} (hr : s.run = .running) (hinv : s.Inv) : s.pastOpcode.Inv := by
  obtain ⟨hwf, hreserved, hnotBoth, -⟩ := hinv
  exact ⟨hwf, hreserved, hnotBoth, recordTrue_of_ne_faulted (by simp [hr])⟩

end Sys2Proof.Machine

namespace Sys2Proof.Claims

open Sys2Proof.Machine

/-- Settles O41: a fault changes the run state alone and records the truth, and an instruction keeps the memory's form
and gives P by SetZN or not at all. -/
theorem stepKeepsTheInvariant : Obligations.StepKeepsTheInvariant := by
  intro s t hinv hstep
  obtain ⟨hr, ⟨hrow, rfl⟩ | ⟨i, rest, -, hexec⟩⟩ := step_cases hstep
  · obtain ⟨hwf, hreserved, hnotBoth, -⟩ := hinv
    exact ⟨hwf, hreserved, hnotBoth, recordTrue_raise hrow⟩
  · exact exec_inv (s.pastOpcode_run.trans hr) hexec (pastOpcode_inv hr hinv)

/-- Settles O42: the memory lists nothing, P is 0 and there is no fault record. -/
theorem resetMeetsTheInvariant : Obligations.ResetMeetsTheInvariant :=
  ⟨Memory.reset_wf, rfl, by decide, rfl⟩

theorem ready_of_read {s : State} {op : Byte} (hr : s.run = .running) (hop : s.mem.read s.pc = op) : Ready s [op] :=
  ⟨hr, by simp [bytesAt, hop]⟩

/-- A running core over the opcode of INX increments X and stays Running over the same memory (R123). -/
theorem step_of_inx {s : State} (hr : s.run = .running) (hop : s.mem.read s.pc = 0xE8) :
    ∃ t, step s = .next t ∧ t.run = .running ∧ t.mem = s.mem := by
  have hstep : step s = exec .inx s.pastOpcode := step_of_ready_implied rfl (ready_of_read hr hop)
  exact ⟨_, hstep, hr, rfl⟩

/-- A running core over memory full of INX is Running after any number of steps: each step leaves such a core. -/
theorem neverEnds_of_all_inx {s : State} (hr : s.run = .running) (hall : ∀ k : Addr, s.mem.read k = 0xE8) :
    NeverEnds s := by
  intro n
  induction n generalizing s with
  | zero => exact ⟨s, rfl, hr⟩
  | succ n ih =>
    obtain ⟨t, hstep, htr, hmem⟩ := step_of_inx hr (hall s.pc)
    rw [core_run_succ hstep]
    exact ih htr (hmem ▸ hall)

/-- Settles O49: the step of INX is repeated for ever, and the memory that holds 0xE8 everywhere, in the state after
reset, is such a core that meets the invariant. -/
theorem runNeedNotEnd : Obligations.RunNeedNotEnd := by
  refine ⟨fun s hr hall => ⟨?step, neverEnds_of_all_inx hr hall⟩, ?witness⟩
  case step =>
    obtain ⟨t, hstep, htr, hmem⟩ := step_of_inx hr (hall s.pc)
    exact ⟨t, hstep, htr, fun k => by rw [hmem]⟩
  case witness =>
    obtain ⟨m, hwf, hread⟩ := everyInitialImageIsAMemory fun _ => 0xE8
    obtain ⟨-, hreserved, hnotBoth, hrecord⟩ := resetMeetsTheInvariant
    exact ⟨State.reset.setMem m, ⟨hwf, hreserved, hnotBoth, hrecord⟩, rfl, hread, neverEnds_of_all_inx rfl hread⟩

end Sys2Proof.Claims

namespace Sys2Proof.Machine

theorem step_of_halted {s : State} (hr : s.run = .halted) : step s = .fault .notEnabledHalted := by
  simp [step, fetch, hr]

theorem step_of_faulted {s : State} {kind : FaultKind} {op : Byte} {pc : Addr} (hr : s.run = .faulted kind op pc) :
    step s = .fault (.notEnabledFaulted kind op pc) := by
  simp [step, fetch, hr]

/-- No step is enabled in a stopped core (R100). -/
theorem step_ne_next_of_stopped {s : State} (hr : s.run ≠ .running) (t : State) : step s ≠ .next t :=
  fun h => hr (step_cases h).left

/-- The instruction decoded from a fetch has the opcode that the fetch read. -/
theorem opcode_of_decode_instrBytes {s : State} {i : Instr} {rest : List Byte} (hd : decode s.instrBytes = .instr i rest) :
    s.mem.read s.pc = i.opcode := by
  have hbytes := eq_encode_append_of_decode hd
  rw [instrBytes_eq, encode, List.cons_append] at hbytes
  exact (List.cons.inj hbytes).left

/-- BRK alone has the opcode 0x00 (R66). -/
theorem opcode_eq_zero_iff (i : Instr) : i.opcode = 0x00 ↔ i = .brk := by
  cases i <;> simp [Instr.opcode]

/-- The opcodes of STA are seven (R66). -/
theorem opcode_of_sta {i : Instr} (hi : i.raw.handler = .addressed .sta) :
    i.opcode ∈ ([0x85, 0x95, 0x8D, 0x9D, 0x99, 0x81, 0x91] : List Byte) := by
  cases i <;> cases hi <;> simp [Instr.opcode]

theorem encode_length (i : Instr) : (encode i).length = i.raw.mode.format.length := by
  cases i <;> rfl

/-- How an instruction's meaning moves PC: not at all without an operand mode, and else by the resolver's count and the
trailing advance (R81, R105 to R107). -/
theorem exec_pc {i : Instr} {s t : State} (h : exec i s = .next t) :
    t.pc = if i.raw.mode = .noneAddressing then s.pc else (s.finish i.raw.mode).pc := by
  cases i <;> cases h <;> rfl

end Sys2Proof.Machine

namespace Sys2Proof.Claims

open Sys2Proof.Machine

/-- Settles O7: the three bytes are those of the fetch, and the state past the opcode byte is the fetch's. -/
theorem stepRunsTheDecodedInstruction : Obligations.StepRunsTheDecodedInstruction := by
  intro s i rest hr hd
  have hbytes : s.instrBytes = [s.mem.read s.pc, s.mem.read (s.pc + 1), s.mem.read (s.pc + 2)] := by
    rw [instrBytes_eq, BitVec.add_assoc]
    rfl
  exact step_of_decode hr (hbytes ▸ hd)

/-- Settles O8: the encoding at PC begins the three bytes of the fetch, which so decode to its instruction. -/
theorem stepRunsTheEncodedInstruction : Obligations.StepRunsTheEncodedInstruction :=
  fun _ _ => step_of_ready_encode

/-- Settles O10: a running core raises or runs its instruction, and the fetch of a stopped one tells why it is. -/
theorem stepEnabledOnlyWhenRunning : Obligations.StepEnabledOnlyWhenRunning :=
  fun _ => ⟨step_isNext_of_running, step_of_halted, fun _ _ _ => step_of_faulted⟩

/-- A running core over an opcode with a row runs an instruction of that opcode. -/
theorem step_of_implemented {s : State} (hr : s.run = .running) (hop : s.mem.read s.pc ∈ opcodeValues) :
    ∃ i t, s.mem.read s.pc = i.opcode ∧ exec i s.pastOpcode = .next t ∧ step s = .next t := by
  rcases decode_instrBytes s with ⟨hrow, -⟩ | ⟨-, -, -, rest, i, -, -, -, hd⟩
  · exact absurd hop (decodeOpcode_eq_none_iff.1 hrow)
  · obtain ⟨t, hexec⟩ := exec_isNext i s.pastOpcode
    exact ⟨i, t, opcode_of_decode_instrBytes hd, hexec, (step_of_decode hr hd).trans hexec⟩

/-- A running core over an opcode outside the 32 values takes the fault (R104). -/
theorem step_of_not_implemented {s : State} (hr : s.run = .running) (hop : s.mem.read s.pc ∉ opcodeValues) :
    step s = .next (s.raise .unimplementedOpcode (s.mem.read s.pc)) :=
  step_of_unimplemented hr (decodeOpcode_eq_none_iff.2 hop)

/-- Halting changes the run state alone (R180). -/
theorem sameButRun_halt (s : State) : SameButRun s s.halt := ⟨rfl, rfl, rfl, rfl, rfl, rfl, fun _ => rfl⟩

/-- A running core over the opcode of BRK halts past it (R180). -/
theorem step_of_brk {s : State} (hr : s.run = .running) (hop : s.mem.read s.pc = 0x00) :
    step s = .next s.pastOpcode.halt :=
  step_of_ready_encode (i := .brk) (ready_of_read hr hop)

/-- Settles O13: 0x00 is BRK's opcode alone, an instruction that is not BRK keeps Running, and an opcode without a row
leaves its record. -/
theorem runStateTransitions : Obligations.RunStateTransitions := by
  intro s
  refine ⟨fun hr hop => ⟨_, step_of_brk hr hop, rfl⟩, fun hr hne hop => ?implemented,
    fun hr hop => ⟨_, step_of_not_implemented hr hop, rfl⟩, rfl⟩
  case implemented =>
    obtain ⟨i, t, hi, hexec, hstep⟩ := step_of_implemented hr hop
    rcases exec_run hexec with hkept | ⟨rfl, -⟩
    · exact ⟨t, hstep, hkept.trans hr⟩
    · exact absurd hi hne

/-- Settles O14: the fault is taken in the state before the step, changes the run state alone, and enables no step. -/
theorem unimplementedOpcodeFaults : Obligations.UnimplementedOpcodeFaults := by
  intro s hr hop
  refine ⟨_, step_of_not_implemented hr hop, rfl, sameButRun_raise s _ _, step_ne_next_of_stopped ?_⟩
  rw [State.raise_run]
  nofun

/-- The pseudocode of a descriptor whose mode does not resolve takes the fault in the state before the step (R106,
60_exceptions.md R202). -/
theorem reference_step_of_unresolved {map : Byte → Option (Handler × Mode)} {s : State} {op : AddressedOp} {m : Mode}
    (hrow : map (s.readByte s.pc) = some (.addressed op, m)) (hres : resolve m s.pastOpcode = none) :
    Reference.step map s = s.raise .invalidAddressingMode (s.readByte s.pc) := by
  simp only [Reference.step, hrow, State.setPc_add_one, hres]

/-- Settles O15: NoneAddressing does not resolve, so the defective map's step raises; with the table a step raises
UnimplementedOpcode alone, and no instruction raises. -/
theorem invalidAddressingModeFaults : Obligations.InvalidAddressingModeFaults := by
  refine ⟨fun map s h hrow => ?defective, fun _ => rfl, fun s t hstep op pc => ?table⟩
  case defective =>
    rw [reference_step_of_unresolved hrow rfl]
    exact ⟨rfl, sameButRun_raise s _ _⟩
  case table =>
    obtain ⟨hr, ⟨-, rfl⟩ | ⟨i, rest, -, hexec⟩⟩ := step_cases hstep
    · simp
    · exact exec_run_ne_faulted (s.pastOpcode_run.trans hr) hexec _ _ _

/-- The fetch, the resolver and the trailing advance move PC by the encoded length under HARDWARE (R108). -/
theorem hardware_advance (m : Mode) : 1 + consumed .hardware m + trailing .hardware = m.format.length := by
  cases m <;> rfl

/-- The same under SOURCE_COMPAT by the column of R108. -/
theorem sourceCompat_advance {m : Mode} (hm : m ≠ .noneAddressing) :
    1 + consumed .sourceCompat m + trailing .sourceCompat = sourceCompatAdvance m := by
  cases m
  case noneAddressing => exact absurd rfl hm
  all_goals rfl

theorem pcMoved_congr {s t u : State} {hw sc : Nat} (ht : t.pc = u.pc) (h : PcMoved s u hw sc) : PcMoved s t hw sc := by
  unfold PcMoved at h ⊢
  rw [ht, h]

/-- A step over an encoding moves PC by its length, or by the column of R108 under SOURCE_COMPAT. -/
theorem pcMoved_of_exec {i : Instr} {s t : State} (h : exec i s.pastOpcode = .next t) :
    PcMoved s t (encode i).length (sourceCompatAdvance i.raw.mode) := by
  have hpc := exec_pc h
  rw [encode_length]
  by_cases hm : i.raw.mode = .noneAddressing
  · rw [hm]
    exact pcMoved_one_of_pc (by rw [hpc, if_pos hm])
  · have hmoved : PcMoved s (s.pastOpcode.finish i.raw.mode) _ _ := pcMoved_finish rfl rfl i.raw.mode
    rw [hardware_advance, sourceCompat_advance hm] at hmoved
    exact pcMoved_congr (hpc.trans (if_neg hm)) hmoved

/-- Settles O16: the advance by the mode of the instruction, and the fault that keeps PC. -/
theorem pcAfterEachInstruction : Obligations.PcAfterEachInstruction := by
  refine ⟨fun s i hready => ?encoded, fun s t hstep => ?raised⟩
  case encoded =>
    obtain ⟨t, hexec⟩ := exec_isNext i s.pastOpcode
    exact ⟨t, (step_of_ready_encode hready).trans hexec, pcMoved_of_exec hexec⟩
  case raised =>
    rintro ⟨kind, op, pc, hfault⟩
    obtain ⟨hr, ⟨-, rfl⟩ | ⟨i, rest, -, hexec⟩⟩ := step_cases hstep
    · rfl
    · exact absurd hfault (exec_run_ne_faulted (s.pastOpcode_run.trans hr) hexec kind op pc)

/-- An instruction writes at most one of A, X and Y (R24). -/
theorem exec_keeps_two_registers {i : Instr} {s t : State} (h : exec i s = .next t) :
    (t.x = s.x ∧ t.y = s.y) ∨ (t.a = s.a ∧ t.y = s.y) ∨ (t.a = s.a ∧ t.x = s.x) := by
  rcases exec_cases h with ⟨-, rfl⟩ | ⟨v, rfl⟩ | ⟨v, rfl⟩ | ⟨v, rfl⟩ | ⟨v, m, rfl⟩ | ⟨ea, m, -, rfl⟩
  · exact .inl ⟨rfl, rfl⟩
  · exact .inr (.inl ⟨rfl, rfl⟩)
  · exact .inr (.inr ⟨rfl, rfl⟩)
  · exact .inl ⟨rfl, rfl⟩
  · exact .inl ⟨rfl, rfl⟩
  · exact .inl ⟨rfl, rfl⟩

theorem exec_reserved {i : Instr} {s t : State} (h : exec i s = .next t) :
    t.p &&& reservedMask = s.p &&& reservedMask := by
  rcases exec_p h with hp | ⟨r, hp⟩
  · rw [hp]
  · rw [hp, withZN_reserved]

/-- Settles O40: a fault writes none of them, and an instruction at most one register, the memory only if it is STA,
whose opcodes are the seven, and P by SetZN. -/
theorem stepWritesAtMostOneRegister : Obligations.StepWritesAtMostOneRegister := by
  intro s t hstep
  obtain ⟨-, ⟨-, rfl⟩ | ⟨i, rest, hd, hexec⟩⟩ := step_cases hstep
  · exact ⟨.inl ⟨rfl, rfl⟩, fun _ _ => rfl, rfl, rfl⟩
  · have hregs := exec_keeps_two_registers hexec
    have hseq := exec_pcSeq hexec
    have hreserved := exec_reserved hexec
    refine ⟨hregs, fun hop k => ?_, hseq, hreserved⟩
    have hnotSta : i.raw.handler ≠ .addressed .sta := fun hsta =>
      hop (opcode_of_decode_instrBytes hd ▸ opcode_of_sta hsta)
    rw [exec_mem_of_not_sta hexec hnotSta]
    rfl

end Sys2Proof.Claims

namespace Sys2Proof.Machine

/-- Bytes written from an address up are read from there, as long as they do not come round the address space. -/
theorem Memory.readBytes_writeBytes (m : Memory) (a : Addr) {bytes : List Byte} (hlen : bytes.length ≤ 65536) :
    (m.writeBytes a bytes).readBytes a bytes.length = bytes := by
  induction bytes generalizing m a with
  | nil => rfl
  | cons b bytes ih =>
    rw [List.length_cons, readBytes, read_writeBytes_first m a b hlen, writeBytes, ih _ _ (Nat.le_of_succ_le hlen)]

/-- The fetch after a table word is placed reads that word's bytes (log 14). -/
theorem instrBytes_withFetchWord (s : State) (nbits w : Nat) : (s.withFetchWord nbits w).instrBytes = tableBytes nbits w :=
  Memory.readBytes_writeBytes s.mem s.pc (bytes := tableBytes nbits w) (by simp [tableBytes])

theorem decode_of_decodeTableWord {nbits w : Nat} {i : Instr} (h : decodeTableWord nbits w = some i) :
    ∃ rest, decode (tableBytes nbits w) = .instr i rest := by
  unfold decodeTableWord at h
  split at h
  · next rest hd => exact ⟨rest, by rw [hd, Option.some.inj h]⟩
  · cases h

end Sys2Proof.Machine

namespace Sys2Proof.Claims

open Sys2Proof.Machine

/-- Settles O50: the fetch of the placed word reads its bytes, and the placing sets Running. -/
theorem placedWordIsRun : Obligations.PlacedWordIsRun := by
  intro s nbits w i hi
  obtain ⟨rest, hd⟩ := decode_of_decodeTableWord hi
  exact step_of_decode rfl (instrBytes_withFetchWord s nbits w ▸ hd)

end Sys2Proof.Claims

namespace Sys2Proof.Claims

open Sys2Proof.Machine

/-- Settles O17: halting writes the run state alone, and the fetch before it moves PC past the opcode. -/
theorem brkHalts : Obligations.BrkHalts := by
  intro s
  refine ⟨⟨_, rfl, rfl, sameButRun_halt s⟩, fun hready => ?_⟩
  have hstep : step s = .next s.pastOpcode.halt := step_of_ready_encode (i := .brk) hready
  obtain ⟨ha, hx, hy, hp, hpc, hseq, hmem⟩ := sameButRun_halt s.pastOpcode
  exact ⟨_, hstep, rfl, pcMoved_one_of_pc hpc, ha, hx, hy, hp, hseq, hmem, step_ne_next_of_stopped (by simp)⟩

theorem afterResultA_resultA (s : State) (v : Byte) : AfterResultA s (s.resultA v) v :=
  ⟨rfl, flagsOf_withZN s.p v, rfl, rfl, rfl, rfl, fun _ => rfl⟩

theorem afterResultY_resultY (s : State) (v : Byte) : AfterResultY s (s.resultY v) v :=
  ⟨rfl, flagsOf_withZN s.p v, rfl, rfl, rfl, rfl, fun _ => rfl⟩

/-- The fetch changes PC alone, so a result written to A after it is framed by the state before it. -/
theorem afterResultA_pastOpcode (s : State) (v : Byte) : AfterResultA s (s.pastOpcode.resultA v) v :=
  afterResultA_resultA s.pastOpcode v

/-- The same for a result written to Y. -/
theorem afterResultY_pastOpcode (s : State) (v : Byte) : AfterResultY s (s.pastOpcode.resultY v) v :=
  afterResultY_resultY s.pastOpcode v

/-- Settles O19: each writes its source byte with its flags, and a step over its opcode runs it after the fetch. -/
theorem transfersMoveAByte : Obligations.TransfersMoveAByte := by
  intro s
  refine ⟨⟨_, rfl, afterResultA_resultA s s.x, rfl⟩, ⟨_, rfl, afterResultY_resultY s s.a, rfl⟩,
    ⟨_, rfl, afterResultA_resultA s s.y, rfl⟩, fun hready => ?txa, fun hready => ?tay, fun hready => ?tya⟩
  case txa =>
    have hstep : step s = exec .txa s.pastOpcode := step_of_ready_implied rfl hready
    exact ⟨_, hstep, afterResultA_pastOpcode s s.x, pcMoved_one_of_pc rfl⟩
  case tay =>
    have hstep : step s = exec .tay s.pastOpcode := step_of_ready_implied rfl hready
    exact ⟨_, hstep, afterResultY_pastOpcode s s.a, pcMoved_one_of_pc rfl⟩
  case tya =>
    have hstep : step s = exec .tya s.pastOpcode := step_of_ready_implied rfl hready
    exact ⟨_, hstep, afterResultA_pastOpcode s s.y, pcMoved_one_of_pc rfl⟩

/-- The 8-bit decrement as a number (00_scope.md R7). -/
theorem sub_one_toNat (b : Byte) : (b - 1).toNat = (b.toNat + 255) % 256 := by
  rw [BitVec.toNat_sub, Nat.add_comm]
  rfl

/-- The 8-bit increment as a number (00_scope.md R7). -/
theorem add_one_toNat (b : Byte) : (b + 1).toNat = (b.toNat + 1) % 256 := BitVec.toNat_add b 1

/-- Settles O20: each writes its register minus or plus 1 with the flags of the new value, and a step over its opcode
runs it after the fetch. -/
theorem decrementsAndInyWrap : Obligations.DecrementsAndInyWrap := by
  intro s
  refine ⟨⟨_, rfl, sub_one_toNat s.x, afterResultX_resultX s (s.x - 1), rfl⟩,
    ⟨_, rfl, sub_one_toNat s.y, afterResultY_resultY s (s.y - 1), rfl⟩,
    ⟨_, rfl, add_one_toNat s.y, afterResultY_resultY s (s.y + 1), rfl⟩,
    fun hready => ?dex, fun hready => ?dey, fun hready => ?iny⟩
  case dex =>
    have hstep : step s = exec .dex s.pastOpcode := step_of_ready_implied rfl hready
    exact ⟨_, hstep, sub_one_toNat s.x, afterResultX_pastOpcode s (s.x - 1), pcMoved_one_of_pc rfl⟩
  case dey =>
    have hstep : step s = exec .dey s.pastOpcode := step_of_ready_implied rfl hready
    exact ⟨_, hstep, sub_one_toNat s.y, afterResultY_pastOpcode s (s.y - 1), pcMoved_one_of_pc rfl⟩
  case iny =>
    have hstep : step s = exec .iny s.pastOpcode := step_of_ready_implied rfl hready
    exact ⟨_, hstep, add_one_toNat s.y, afterResultY_pastOpcode s (s.y + 1), pcMoved_one_of_pc rfl⟩

/-- The encoding of an instruction whose operand is a little-endian word (R63). -/
theorem encode_of_word {i : Instr} {lo hi : Byte} (h : i.raw.operand = .word (wordOf lo hi)) :
    encode i = [i.opcode, lo, hi] := by
  simp [encode, h, Operand.bytes]

/-- A step over the encoding of an addressed instruction, with what its effect `u` and the advance of its mode leave. -/
theorem addressed_step {s u : State} {i : Instr} {bytes : List Byte} {After : State → Prop} (m : Mode)
    (hready : Ready s bytes) (henc : encode i = bytes) (hexec : exec i s.pastOpcode = .next (u.finish m))
    (hpc : u.pc = s.pastOpcode.pc) (hseq : u.pcSeq = s.pcSeq) (hafter : After (u.finish m)) :
    ∃ t, step s = .next t ∧ After t ∧ PcMoved s t (1 + consumed .hardware m + trailing .hardware)
      (1 + consumed .sourceCompat m + trailing .sourceCompat) := by
  subst henc
  exact ⟨_, (step_of_ready_encode hready).trans hexec, hafter, pcMoved_finish hpc hseq m⟩

/-- A step over the encoding of an instruction that loads `v` (R140). -/
theorem load_step {s : State} {bytes : List Byte} {v : Byte} (i : Instr) (m : Mode) (henc : encode i = bytes)
    (hexec : exec i s.pastOpcode = .next (s.pastOpcode.load v m)) (hready : Ready s bytes) :
    ∃ t, step s = .next t ∧ AfterResultA s t v ∧ PcMoved s t (1 + consumed .hardware m + trailing .hardware)
      (1 + consumed .sourceCompat m + trailing .sourceCompat) :=
  addressed_step m hready henc hexec rfl rfl (afterResultA_load s.pastOpcode v m)

/-- Settles O23: each encoding is its instruction's, whose meaning loads the byte that its mode addresses. -/
theorem ldaStepsLoad : Obligations.LdaStepsLoad := fun _ =>
  ⟨fun b => load_step (.ldaImm b) .immediate rfl rfl,
   fun b => load_step (.ldaZp b) .zeroPage rfl rfl,
   fun b => load_step (.ldaZpX b) .zeroPageX rfl rfl,
   fun lo hi => load_step (.ldaAbs (wordOf lo hi)) .absolute (encode_of_word rfl) rfl,
   fun lo hi => load_step (.ldaAbsX (wordOf lo hi)) .absoluteX (encode_of_word rfl) rfl,
   fun lo hi => load_step (.ldaAbsY (wordOf lo hi)) .absoluteY (encode_of_word rfl) rfl,
   fun b => load_step (.ldaIndX b) .indirectX rfl rfl,
   fun b => load_step (.ldaIndY b) .indirectY rfl rfl⟩

/-- A step over the encoding of an instruction that stores A at `ea` (R141). -/
theorem store_step {s : State} {bytes : List Byte} {ea : Addr} (i : Instr) (m : Mode) (henc : encode i = bytes)
    (hexec : exec i s.pastOpcode = .next (s.pastOpcode.store ea m)) (hready : Ready s bytes) :
    ∃ t, step s = .next t ∧ AfterStore s t ea ∧ PcMoved s t (1 + consumed .hardware m + trailing .hardware)
      (1 + consumed .sourceCompat m + trailing .sourceCompat) :=
  addressed_step m hready henc hexec rfl rfl (afterStore_store s.pastOpcode ea m)

/-- Settles O25: each encoding is its instruction's, whose meaning stores A at the address of its mode. -/
theorem staStepsStore : Obligations.StaStepsStore := fun _ =>
  ⟨fun b => store_step (.staZp b) .zeroPage rfl rfl,
   fun b => store_step (.staZpX b) .zeroPageX rfl rfl,
   fun lo hi => store_step (.staAbs (wordOf lo hi)) .absolute (encode_of_word rfl) rfl,
   fun lo hi => store_step (.staAbsX (wordOf lo hi)) .absoluteX (encode_of_word rfl) rfl,
   fun lo hi => store_step (.staAbsY (wordOf lo hi)) .absoluteY (encode_of_word rfl) rfl,
   fun b => store_step (.staIndX b) .indirectX rfl rfl,
   fun b => store_step (.staIndY b) .indirectY rfl rfl⟩

/-- The left shift loses bit 7 and clears bit 0 (R142). -/
theorem rolByte_toNat (v : Byte) : (rolByte v).toNat = 2 * v.toNat % 256 := by
  rw [rolByte, BitVec.toNat_shiftLeft, Nat.shiftLeft_eq, Nat.mul_comm]

/-- The right shift loses bit 0 and clears bit 7 (R143). -/
theorem rorByte_toNat (v : Byte) : (rorByte v).toNat = v.toNat / 2 := by
  rw [rorByte, BitVec.toNat_ushiftRight, Nat.shiftRight_one]

/-- `Execute(ROL, ea)` and its PC sequencing: a result in A, the byte shifted left. -/
theorem afterRol_rotateLeft (s : State) (v : Byte) (m : Mode) : AfterRol s (s.rotateLeft v m) v :=
  ⟨rolByte_toNat v, afterResultA_load s (rolByte v) m⟩

/-- `Execute(ROR, ea)` and its PC sequencing: a result in A, the byte shifted right. -/
theorem afterRor_rotateRight (s : State) (v : Byte) (m : Mode) : AfterRor s (s.rotateRight v m) v :=
  ⟨rorByte_toNat v, afterResultA_load s (rorByte v) m⟩

/-- Settles O26: every form shifts the byte that its mode addresses into A. -/
theorem rolFormsComplete : Obligations.RolFormsComplete := fun s =>
  ⟨fun b => ⟨_, rfl, afterRol_rotateLeft s (s.readByte (eaZeroPage b)) .zeroPage⟩,
   fun b => ⟨_, rfl, afterRol_rotateLeft s (s.readByte (eaZeroPageX b s)) .zeroPageX⟩,
   fun w => ⟨_, rfl, afterRol_rotateLeft s (s.readByte (eaAbsolute w)) .absolute⟩,
   fun w => ⟨_, rfl, afterRol_rotateLeft s (s.readByte (eaAbsoluteX w s)) .absoluteX⟩⟩

/-- Settles O28: every form shifts the byte that its mode addresses into A. -/
theorem rorFormsComplete : Obligations.RorFormsComplete := fun s =>
  ⟨fun b => ⟨_, rfl, afterRor_rotateRight s (s.readByte (eaZeroPage b)) .zeroPage⟩,
   fun b => ⟨_, rfl, afterRor_rotateRight s (s.readByte (eaZeroPageX b s)) .zeroPageX⟩,
   fun w => ⟨_, rfl, afterRor_rotateRight s (s.readByte (eaAbsolute w)) .absolute⟩,
   fun w => ⟨_, rfl, afterRor_rotateRight s (s.readByte (eaAbsoluteX w s)) .absoluteX⟩⟩

/-- A step over the encoding of an instruction that shifts `v` left into A (R142). -/
theorem rotateLeft_step {s : State} {bytes : List Byte} {v : Byte} (i : Instr) (m : Mode) (henc : encode i = bytes)
    (hexec : exec i s.pastOpcode = .next (s.pastOpcode.rotateLeft v m)) (hready : Ready s bytes) :
    ∃ t, step s = .next t ∧ AfterRol s t v ∧ PcMoved s t (1 + consumed .hardware m + trailing .hardware)
      (1 + consumed .sourceCompat m + trailing .sourceCompat) :=
  addressed_step m hready henc hexec rfl rfl (afterRol_rotateLeft s.pastOpcode v m)

/-- A step over the encoding of an instruction that shifts `v` right into A (R143). -/
theorem rotateRight_step {s : State} {bytes : List Byte} {v : Byte} (i : Instr) (m : Mode) (henc : encode i = bytes)
    (hexec : exec i s.pastOpcode = .next (s.pastOpcode.rotateRight v m)) (hready : Ready s bytes) :
    ∃ t, step s = .next t ∧ AfterRor s t v ∧ PcMoved s t (1 + consumed .hardware m + trailing .hardware)
      (1 + consumed .sourceCompat m + trailing .sourceCompat) :=
  addressed_step m hready henc hexec rfl rfl (afterRor_rotateRight s.pastOpcode v m)

/-- Settles O27: each encoding is its instruction's, whose meaning shifts left the byte that its mode addresses. -/
theorem rolStepsShiftLeft : Obligations.RolStepsShiftLeft := fun _ =>
  ⟨fun b => rotateLeft_step (.rolZp b) .zeroPage rfl rfl,
   fun b => rotateLeft_step (.rolZpX b) .zeroPageX rfl rfl,
   fun lo hi => rotateLeft_step (.rolAbs (wordOf lo hi)) .absolute (encode_of_word rfl) rfl,
   fun lo hi => rotateLeft_step (.rolAbsX (wordOf lo hi)) .absoluteX (encode_of_word rfl) rfl⟩

/-- Settles O29: each encoding is its instruction's, whose meaning shifts right the byte that its mode addresses. -/
theorem rorStepsShiftRight : Obligations.RorStepsShiftRight := fun _ =>
  ⟨fun b => rotateRight_step (.rorZp b) .zeroPage rfl rfl,
   fun b => rotateRight_step (.rorZpX b) .zeroPageX rfl rfl,
   fun lo hi => rotateRight_step (.rorAbs (wordOf lo hi)) .absolute (encode_of_word rfl) rfl,
   fun lo hi => rotateRight_step (.rorAbsX (wordOf lo hi)) .absoluteX (encode_of_word rfl) rfl⟩

/-- Under HARDWARE the resolver consumes the operand bytes of the mode's format (R81). -/
theorem consumed_hardware (m : Mode) : consumed .hardware m = m.format.length - 1 := by
  cases m <;> rfl

/-- Under SOURCE_COMPAT it does so but for Immediate, of which it consumes none (R81). -/
theorem consumed_sourceCompat (m : Mode) :
    consumed .sourceCompat m = if m = .immediate then 0 else m.format.length - 1 := by
  cases m <;> rfl

/-- The effective address of Immediate is the operand byte's own (R82). -/
theorem resolve_immediate_ea {s t : State} {ea : Addr} (h : resolve .immediate s = some (ea, t)) : ea = s.pc := by
  cases h
  rfl

/-- Settles O30: every mode but NoneAddressing resolves to the state with PC moved by the mode's count. -/
theorem resolverMovesOnlyPc : Obligations.ResolverMovesOnlyPc := by
  intro s m
  refine ⟨fun hm => ?_, fun hm => hm ▸ rfl⟩
  obtain ⟨⟨ea, t⟩, hres⟩ := Option.isSome_iff_exists.1 ((resolve_isSome m s).2 hm)
  refine ⟨ea, t, hres, fun himm => resolve_immediate_ea (himm ▸ hres), ?_⟩
  rw [resolve_state hres, ← consumed_sourceCompat, ← consumed_hardware]
  exact ⟨pcMoved_advancePc_consumed s m, sameButPc_advancePc s _⟩

end Sys2Proof.Claims

namespace Sys2Proof.Machine

/-- Where `load` puts the byte of the image at offset `i`, as a number (R232). -/
theorem loadAddress_add_toNat {i : Nat} (hi : i < 0x8000) : (Config.loadAddress + BitVec.ofNat 16 i).toNat = 0x8000 + i := by
  have hload : Config.loadAddress.toNat = 0x8000 := rfl
  rw [BitVec.toNat_add, BitVec.toNat_ofNat, hload]
  omega

theorem loadAddress_add_ne {i : Nat} {k : Addr} (hi : i < 0x8000) (hk : 0x8000 + i ≠ k.toNat) :
    Config.loadAddress + BitVec.ofNat 16 i ≠ k := by
  rwa [BitVec.toNat_ne, loadAddress_add_toNat hi]

/-- The reset vector's low byte after a load (R232). -/
theorem read_loadedMemory_vector_low (m : Memory) (img : List Byte) : (loadedMemory m img).read 0xFFFC = 0x00 :=
  Memory.read_writeWord_low (m.writeBytes Config.loadAddress img) Config.resetVector Config.loadAddress

/-- The reset vector's high byte after a load (R232). -/
theorem read_loadedMemory_vector_high (m : Memory) (img : List Byte) : (loadedMemory m img).read 0xFFFD = 0x80 :=
  Memory.read_writeWord_high (m.writeBytes Config.loadAddress img) Config.resetVector Config.loadAddress

/-- Off the reset vector a load leaves what the copy of the image has left. -/
theorem read_loadedMemory_off_vector (m : Memory) (img : List Byte) {k : Addr} (hlow : k ≠ 0xFFFC) (hhigh : k ≠ 0xFFFD) :
    (loadedMemory m img).read k = (m.writeBytes Config.loadAddress img).read k :=
  Memory.read_writeWord_other _ Config.resetVector Config.loadAddress k hlow hhigh

/-- The image's bytes after a load, but for those that the vector replaces (R232). -/
theorem read_loadedMemory_image (m : Memory) {img : List Byte} (hlen : img.length ≤ Config.maxImageLength) {i : Nat}
    (hi : i < img.length) (hlow : i ≠ 0x7FFC) (hhigh : i ≠ 0x7FFD) :
    (loadedMemory m img).read (Config.loadAddress + BitVec.ofNat 16 i) = img[i] := by
  rw [Config.maxImageLength] at hlen
  have hi' : i < 0x8000 := by omega
  have hofflow : Config.loadAddress + BitVec.ofNat 16 i ≠ 0xFFFC :=
    loadAddress_add_ne hi' (show 0x8000 + i ≠ 0xFFFC by omega)
  have hoffhigh : Config.loadAddress + BitVec.ofNat 16 i ≠ 0xFFFD :=
    loadAddress_add_ne hi' (show 0x8000 + i ≠ 0xFFFD by omega)
  rw [read_loadedMemory_off_vector m img hofflow hoffhigh]
  exact Memory.read_writeBytes_inside m _ (by omega) hi

/-- Off the image and the vector a load changes no byte (R232). -/
theorem read_loadedMemory_outside (m : Memory) {img : List Byte} (hlen : img.length ≤ Config.maxImageLength) {k : Addr}
    (hlow : k ≠ 0xFFFC) (hhigh : k ≠ 0xFFFD) (hk : k.toNat < 0x8000 ∨ 0x8000 + img.length ≤ k.toNat) :
    (loadedMemory m img).read k = m.read k := by
  rw [Config.maxImageLength] at hlen
  rw [read_loadedMemory_off_vector m img hlow hhigh]
  exact Memory.read_writeBytes_outside m _ img k fun i hi => (loadAddress_add_ne (by omega) (by omega)).symm

theorem hostLoad_of_le (s : State) {img : List Byte} (h : img.length ≤ Config.maxImageLength) :
    s.hostLoad img = .next (s.setMem (loadedMemory s.mem img)) := if_pos h

theorem hostLoad_of_gt (s : State) {img : List Byte} (h : Config.maxImageLength < img.length) :
    s.hostLoad img = .refused (.imageTooLong img.length) := if_neg (Nat.not_le.2 h)

/-- A load that answers has copied its image and written the vector (R232, R233). -/
theorem eq_setMem_of_hostLoad {s t : State} {img : List Byte} (h : s.hostLoad img = .next t) :
    t = s.setMem (loadedMemory s.mem img) := by
  by_cases hlen : img.length ≤ Config.maxImageLength
  · rw [hostLoad_of_le s hlen] at h
    cases h
    rfl
  · rw [hostLoad_of_gt s (Nat.not_le.1 hlen)] at h
    cases h

/-- A reset re-derives PC from the vector, low byte first (R231, 20_memory.md R43). -/
theorem hostReset_pc_toNat (s : State) :
    s.hostReset.pc.toNat = (s.mem.read 0xFFFC).toNat + 256 * (s.mem.read 0xFFFD).toNat :=
  Memory.readWord_toNat s.mem Config.resetVector

/-- The vector that a load has written is the load address (R232). -/
theorem readWord_loadedMemory_vector (m : Memory) (img : List Byte) :
    (loadedMemory m img).readWord Config.resetVector = Config.loadAddress :=
  Memory.readWord_writeWord _ _ _

end Sys2Proof.Machine

namespace Sys2Proof.Claims

open Sys2Proof.Machine

/-- Settles O43: each field as the reset sets it. -/
theorem resetZeroesRegistersAndReloadsPc : Obligations.ResetZeroesRegistersAndReloadsPc :=
  fun s => ⟨rfl, rfl, rfl, rfl, hostReset_pc_toNat s, rfl, rfl, fun _ => rfl⟩

/-- Settles O44: the read of each address after the copy and the vector, and that only memory is replaced. -/
theorem loadPlacesImageAndVector : Obligations.LoadPlacesImageAndVector := by
  intro s img hlen
  refine ⟨_, hostLoad_of_le s hlen, read_loadedMemory_vector_low s.mem img, read_loadedMemory_vector_high s.mem img,
    fun i hi hlow hhigh => ?image, fun k => read_loadedMemory_outside s.mem hlen, rfl, rfl, rfl, rfl, rfl, rfl, rfl⟩
  case image =>
    rw [BitVec.ofNat_add]
    exact read_loadedMemory_image s.mem hlen hi hlow hhigh

/-- Settles O45: the length decides, and of the empty image no byte is copied. -/
theorem oversizedImageRefused : Obligations.OversizedImageRefused := by
  intro s img
  refine ⟨hostLoad_of_gt s, fun hlen => ⟨_, hostLoad_of_le s hlen⟩, _, hostLoad_of_le s (Nat.zero_le _),
    read_loadedMemory_vector_low s.mem [], read_loadedMemory_vector_high s.mem [],
    fun _ => read_loadedMemory_off_vector s.mem []⟩

/-- Settles O46: a load leaves its own address in the vector that the reset reads. -/
theorem loadThenResetStartsAt8000 : Obligations.LoadThenResetStartsAt8000 := by
  intro s t img
  refine ⟨fun hload => ?_, hostReset_pc_toNat s⟩
  rw [eq_setMem_of_hostLoad hload]
  exact readWord_loadedMemory_vector s.mem img

/-- Settles O47, one transaction at a time: the register write, the reset and the load are updates of the fields they
name, and a step keeps the configuration whether it raises or runs an instruction. -/
theorem hostTransactionsFrame : Obligations.HostTransactionsFrame := by
  intro o s t h
  cases o with
  | load img =>
    obtain rfl := eq_setMem_of_hostLoad h
    exact ⟨rfl, rfl, rfl, rfl, rfl, rfl, rfl⟩
  | reset =>
    cases h
    exact ⟨rfl, fun _ => rfl, rfl⟩
  | step =>
    obtain ⟨-, -, hseq, -⟩ := stepWritesAtMostOneRegister s t h
    exact ⟨hseq, (step_cases h).left⟩
  | setReg r =>
    cases h
    cases r <;> exact ⟨rfl, rfl⟩

end Sys2Proof.Claims

namespace Sys2Proof.Machine.Assembler

theorem hexValue_hexDigit : ∀ n < 16, hexValue (hexDigit n) = some n := by decide

/-- The two digits of a byte read back. -/
theorem readByte_hexDigits (b : Byte) : readByte (hexDigit (b.toNat / 16)) (hexDigit (b.toNat % 16)) = some b := by
  have hhigh := hexValue_hexDigit (b.toNat / 16) (by omega)
  have hlow := hexValue_hexDigit (b.toNat % 16) (by omega)
  simp [readByte, hhigh, hlow, Nat.div_add_mod]

theorem readByte_of_no_digit {c : Char} (h : hexValue c = none) (d : Char) : readByte c d = none := by
  simp [readByte, h]

/-- No hex digit begins the text, so a number before it ends there. -/
def NoDigitNext (text : List Char) : Prop := ∀ c ∈ text.head?, hexValue c = none

/-- Two digits with no digit after them are read as a byte (R71). -/
theorem readDigits_byteText (b : Byte) {rest : List Char} (hrest : NoDigitNext rest) :
    readDigits (byteText b ++ rest) = some (.byte b, rest) := by
  rcases rest with _ | ⟨c, _ | ⟨d, rest⟩⟩
  · simp [byteText, readDigits, readShort, readByte_hexDigits]
  · simp [byteText, readDigits, readShort, readByte_hexDigits]
  · have hnext : readByte c d = none := readByte_of_no_digit (hrest c rfl) d
    simp [byteText, readDigits, readShort, readByte_hexDigits, hnext]

/-- Four digits are read as a word, the high byte first (R71). -/
theorem readDigits_wordText (w : Addr) (rest : List Char) :
    readDigits (byteText (highByte w) ++ byteText (lowByte w) ++ rest) = some (.word w, rest) := by
  simp [byteText, readDigits, readByte_hexDigits]

/-- The printed number of an operand reads back. -/
theorem readNumber_operandText {o : Operand} (ho : o ≠ .none) {rest : List Char} (hrest : NoDigitNext rest) :
    readNumber (operandText o ++ rest) = some (o, rest) := by
  cases o with
  | none => exact absurd rfl ho
  | byte b => exact readDigits_byteText b hrest
  | word w => exact readDigits_wordText w rest

theorem withMode_operandText {mode : Operand → List Char → Option Mode} {o : Operand} {m : Mode} {rest : List Char}
    (ho : o ≠ .none) (hrest : NoDigitNext rest) (hmode : mode o rest = some m) :
    withMode mode (operandText o ++ rest) = some (m, o) := by
  simp [withMode, readNumber_operandText ho hrest, hmode]

/-- A printed number without a mark before it is read with its plain mode. -/
theorem parseOperand_plain {o : Operand} {m : Mode} {rest : List Char} (ho : o ≠ .none) (hrest : NoDigitNext rest)
    (hmode : plainMode o rest = some m) : parseOperand (' ' :: (operandText o ++ rest)) = some (m, o) := by
  have hplain : parseOperand (' ' :: (operandText o ++ rest)) = withMode plainMode (operandText o ++ rest) := by
    cases o with
    | none => exact absurd rfl ho
    | byte b => rfl
    | word w => rfl
  rw [hplain, withMode_operandText ho hrest hmode]

theorem noDigitNext_nil : NoDigitNext [] := nofun

theorem noDigitNext_cons {c : Char} (h : hexValue c = none) (rest : List Char) : NoDigitNext (c :: rest) := by
  rintro d ⟨⟩
  exact h

theorem noDigitNext_comma (rest : List Char) : NoDigitNext (',' :: rest) := noDigitNext_cons (by decide) rest

theorem noDigitNext_bracket (rest : List Char) : NoDigitNext (')' :: rest) := noDigitNext_cons (by decide) rest

/-- The text after the mnemonic reads back as the mode and the operand, for an operand of the mode's size. -/
theorem parseOperand_modeText {m : Mode} {o : Operand} (h : o.fits m.format = true) :
    parseOperand (modeText m (operandText o)) = some (m, o) := by
  cases m <;> cases o <;> cases h
  case noneAddressing => rfl
  case immediate b =>
    rw [← List.append_nil (operandText _)]
    exact withMode_operandText nofun noDigitNext_nil rfl
  case zeroPage b =>
    rw [← List.append_nil (operandText _)]
    exact parseOperand_plain nofun noDigitNext_nil rfl
  case absolute w =>
    rw [← List.append_nil (operandText _)]
    exact parseOperand_plain nofun noDigitNext_nil rfl
  case zeroPageX | zeroPageY | absoluteX | absoluteY => exact parseOperand_plain nofun (noDigitNext_comma _) rfl
  case indirectX => exact withMode_operandText nofun (noDigitNext_comma _) rfl
  case indirectY => exact withMode_operandText nofun (noDigitNext_bracket _) rfl

theorem mnemonic_length (h : Handler) : (mnemonic h).length = 3 := by
  rcases h with _ | op | op
  · rfl
  · cases op <;> rfl
  · cases op <;> rfl

/-- No two handlers share a mnemonic, so looking one up finds its handler. -/
theorem find_mnemonic (h : Handler) : handlers.find? (fun k => mnemonic k == mnemonic h) = some h := by
  rcases h with _ | op | op
  · rfl
  · cases op <;> rfl
  · cases op <;> rfl

/-- The printed text of a raw instruction reads back, whether or not it has a row in R66. -/
theorem parse_print {r : RawInstr} (h : r.operand.fits r.mode.format = true) : parse (print r) = some r := by
  have htake : (print r).take 3 = mnemonic r.handler := List.take_left' (mnemonic_length r.handler)
  have hdrop : (print r).drop 3 = modeText r.mode (operandText r.operand) := List.drop_left' (mnemonic_length r.handler)
  simp only [parse, htake, hdrop, find_mnemonic, parseOperand_modeText h]

end Sys2Proof.Machine.Assembler

namespace Sys2Proof.Claims

open Sys2Proof.Machine

/-- An instruction's operand has the size of its mode's format (R61 to R63). -/
theorem raw_operand_fits (i : Instr) : i.raw.operand.fits i.raw.mode.format = true := by
  cases i <;> rfl

/-- Settles O6: the printed text reads back as the raw instruction, whose instruction is encoded. -/
theorem assemblerReadsBackItsText : Obligations.AssemblerReadsBackItsText := by
  intro i
  have hparse := Assembler.parse_print (raw_operand_fits i)
  refine ⟨hparse, ?_⟩
  rw [Assembler.assemble, hparse, Option.bind_some, toInstr_raw, Option.map_some]

end Sys2Proof.Claims
